-- ==== Sys2Proof/Word.lean ====
section
/-! DEFINITION. The words of the block: unsigned values of a stated width (spec/00_scope.md R9), bit i of which is the
coefficient of X^i (R11). -/

namespace Sys2Proof

/-- The command argument and the response data, `u32` (R8 ARG_W, R72). -/
abbrev Arg := BitVec 32

/-- The opcode field, `u4` (R8 OP_W, R70). -/
abbrev Op := BitVec 4

/-- The 36-bit command word `CW` = op, then arg (R70). -/
abbrev CommandWord := BitVec 36

/-- A table entry, a codeword or an error pattern, `u23` (R7 N, R11). -/
abbrev Pattern := BitVec 23

/-- A syndrome, `u11` (R7 R, R13). -/
abbrev Syndrome := BitVec 11

/-- The information bits of a codeword, `u12` (R7 K). -/
abbrev DataWord := BitVec 12

end Sys2Proof
end

