-- ==== Sys2Proof/Syntax.lean ====
section
/-! DEFINITION. The commands: one constructor per row of spec/opcode_table.json (spec/30_encoding.md R73), the ten
reserved opcodes among them (R76). Every command carries the one operand of the format, `arg` (R70, R72). -/

namespace Sys2Proof

/-- A command of the block (R73). A reserved opcode is a command too: it is accepted, executed and answered with
ILLEGAL_OP (R76, R184). -/
inductive Instr where
  /-- 0x1 INIT: build both tables (R133). -/
  | init (arg : Arg)
  /-- 0x2 ENCODE: golay_encoder (R150). -/
  | encode (arg : Arg)
  /-- 0x3 DECODE: golay_decoder (R152). -/
  | decode (arg : Arg)
  /-- 0x4 SYNDROME: gf2_poly_divider (R102). -/
  | syndrome (arg : Arg)
  /-- 0x5 RD_SLT: read the syndrome_lookup_table (R170). -/
  | rdSlt (arg : Arg)
  /-- 0x6 RD_EPL: read the error_pattern_lut (R172). -/
  | rdEpl (arg : Arg)
  /-- 0x0, reserved (R76). -/
  | reserved0 (arg : Arg)
  /-- 0x7, reserved (R76). -/
  | reserved7 (arg : Arg)
  /-- 0x8, reserved (R76). -/
  | reserved8 (arg : Arg)
  /-- 0x9, reserved (R76). -/
  | reserved9 (arg : Arg)
  /-- 0xA, reserved (R76). -/
  | reservedA (arg : Arg)
  /-- 0xB, reserved (R76). -/
  | reservedB (arg : Arg)
  /-- 0xC, reserved (R76). -/
  | reservedC (arg : Arg)
  /-- 0xD, reserved (R76). -/
  | reservedD (arg : Arg)
  /-- 0xE, reserved (R76). -/
  | reservedE (arg : Arg)
  /-- 0xF, reserved (R76). -/
  | reservedF (arg : Arg)
  deriving DecidableEq, Repr

end Sys2Proof
end

