-- ==== Sys2Proof/Machine/Operands.lean ====
section
/-! DEFINITION. The one operand form: `arg`, an unsigned 32-bit value (spec/30_encoding.md R72), its legal range in each
command (R75), and the index or pattern a command reads from it. -/

namespace Sys2Proof.Machine

/-- LEGAL_MASK of INIT: no bit may be set (R75). -/
def initMask : Arg := 0x00000000

/-- LEGAL_MASK of ENCODE: 12 bits of data (R75). -/
def encodeMask : Arg := 0x00000FFF

/-- LEGAL_MASK of DECODE: a received word of 23 bits (R75). -/
def decodeMask : Arg := 0x007FFFFF

/-- LEGAL_MASK of SYNDROME: a pattern of 23 bits (R75). -/
def syndromeMask : Arg := 0x007FFFFF

/-- LEGAL_MASK of RD_SLT: a 12-bit index (R75). -/
def rdSltMask : Arg := 0x00000FFF

/-- LEGAL_MASK of RD_EPL: an 11-bit syndrome (R75). -/
def rdEplMask : Arg := 0x000007FF

/-- An argument is legal when no bit outside the command's LEGAL_MASK is set (R75, R182). -/
def argLegal (mask arg : Arg) : Bool := arg &&& ~~~mask == 0

/-- The 12-bit data value or SLT index of a legal argument of ENCODE or RD_SLT. -/
def dataOf (arg : Arg) : DataWord := arg.setWidth 12

/-- The 23-bit pattern of a legal argument of DECODE or SYNDROME. -/
def patternOf (arg : Arg) : Pattern := arg.setWidth 23

/-- The 11-bit EPL index of a legal argument of RD_EPL. -/
def indexOf (arg : Arg) : Syndrome := arg.setWidth 11

end Sys2Proof.Machine
end

