-- ==== Sys2Proof/WellFormed.lean ====
section
/-! DEFINITION. When a command word is well formed: its opcode is not reserved and its argument lies in the command's
LEGAL_MASK (spec/30_encoding.md R75, R76). This never depends on the block's state (spec/60_exceptions.md R185). A
command that is not well formed can still be encoded, accepted and executed: it is answered with ILLEGAL_OP or
INVALID_INPUT. -/

namespace Sys2Proof

/-- The static check of a command. -/
def Instr.wellFormed : Instr → Bool
  | .init a => Machine.argLegal Machine.initMask a
  | .encode a => Machine.argLegal Machine.encodeMask a
  | .decode a => Machine.argLegal Machine.decodeMask a
  | .syndrome a => Machine.argLegal Machine.syndromeMask a
  | .rdSlt a => Machine.argLegal Machine.rdSltMask a
  | .rdEpl a => Machine.argLegal Machine.rdEplMask a
  | .reserved0 _ => false
  | .reserved7 _ => false
  | .reserved8 _ => false
  | .reserved9 _ => false
  | .reservedA _ => false
  | .reservedB _ => false
  | .reservedC _ => false
  | .reservedD _ => false
  | .reservedE _ => false
  | .reservedF _ => false

end Sys2Proof
end

