-- ==== Sys2Proof/Decode.lean ====
section
/-! DEFINITION. Decoding and encoding of the one command format (spec/30_encoding.md R70, R73, R77). -/

namespace Sys2Proof

/-- The command that opcode `op` selects, with argument `arg` (R71, R73). Every 4-bit opcode has a row
of the map: the last case is 0xF. -/
def decodeCommand (op : Op) (arg : Arg) : Instr :=
  match op.toNat with
  | 0x0 => .reserved0 arg
  | 0x1 => .init arg
  | 0x2 => .encode arg
  | 0x3 => .decode arg
  | 0x4 => .syndrome arg
  | 0x5 => .rdSlt arg
  | 0x6 => .rdEpl arg
  | 0x7 => .reserved7 arg
  | 0x8 => .reserved8 arg
  | 0x9 => .reserved9 arg
  | 0xA => .reservedA arg
  | 0xB => .reservedB arg
  | 0xC => .reservedC arg
  | 0xD => .reservedD arg
  | 0xE => .reservedE arg
  | _ => .reservedF arg

/-- The `op` field of a command word: bits 35 to 32 (R70). -/
def opField (cw : CommandWord) : Op := cw.extractLsb' 32 4

/-- The `arg` field of a command word: bits 31 to 0 (R70). -/
def argField (cw : CommandWord) : Arg := cw.extractLsb' 0 32

/-- The command of a 36-bit command word. -/
def decodeWord (cw : CommandWord) : Instr := decodeCommand (opField cw) (argField cw)

/-- Why a number is no command word. -/
inductive DecodeError where
  /-- A bit above bit 35 is set: every command word has 36 bits (R77). -/
  | widerThanCommandWord
  deriving DecidableEq, Repr

/-- Decoding of any number, read as bits with bit 0 the least significant bit of the command word. -/
def decodeBits (bits : Nat) : Except DecodeError Instr :=
  if bits < 2 ^ 36 then .ok (decodeWord (BitVec.ofNat 36 bits)) else .error .widerThanCommandWord

/-- What the decoder reads from a word of `nbits` bits, numbered as spec/opcode_table.json numbers them (bits 35 to 32
the opcode, 31 to 0 the argument). -/
def decodeTableWord (nbits w : Nat) : Option Instr :=
  match decodeBits (w % 2 ^ nbits) with
  | .ok i => some i
  | .error _ => none

/-- The opcode of a command (R73). -/
def Instr.opcode : Instr → Op
  | .init _ => 0x1
  | .encode _ => 0x2
  | .decode _ => 0x3
  | .syndrome _ => 0x4
  | .rdSlt _ => 0x5
  | .rdEpl _ => 0x6
  | .reserved0 _ => 0x0
  | .reserved7 _ => 0x7
  | .reserved8 _ => 0x8
  | .reserved9 _ => 0x9
  | .reservedA _ => 0xA
  | .reservedB _ => 0xB
  | .reservedC _ => 0xC
  | .reservedD _ => 0xD
  | .reservedE _ => 0xE
  | .reservedF _ => 0xF

/-- The argument of a command (R72). -/
def Instr.arg : Instr → Arg
  | .init a | .encode a | .decode a | .syndrome a | .rdSlt a | .rdEpl a
  | .reserved0 a | .reserved7 a | .reserved8 a | .reserved9 a | .reservedA a
  | .reservedB a | .reservedC a | .reservedD a | .reservedE a | .reservedF a => a

/-- Whether a command's opcode is reserved (R76): 0x0 and 0x7 to 0xF. -/
def Instr.isReserved : Instr → Bool
  | .init _ | .encode _ | .decode _ | .syndrome _ | .rdSlt _ | .rdEpl _ => false
  | .reserved0 _ | .reserved7 _ | .reserved8 _ | .reserved9 _ | .reservedA _
  | .reservedB _ | .reservedC _ | .reservedD _ | .reservedE _ | .reservedF _ => true

/-- The command word of a command: `op` above `arg` (R70). -/
def encode (i : Instr) : CommandWord := i.opcode ++ i.arg

end Sys2Proof
end

