-- ==== Sys2Proof/Config.lean ====
section
/-! DEFINITION. What is fixed for the block: the code's constants (spec/00_scope.md R3, R7), the open parameter
RESET_STYLE (R8), and the free values: `opaque` constants without a body, which stand for what the spec leaves
unspecified (spec/93_implementation_defined.md U3, U7, U8, U9). Nothing can be proved of a free value. Each is indexed
by the clock edge at which it is drawn (`State.edge`), so two draws need not agree. -/

namespace Sys2Proof.Config

/-- N, the codeword length in bits (R7). -/
def codeLength : Nat := 23

/-- K, the data length in bits (R7). -/
def dataLength : Nat := 12

/-- R = N - K, the parity length and syndrome width (R7). -/
def parityLength : Nat := 11

/-- DMIN, the minimum distance of the code (R7). -/
def minDistance : Nat := 7

/-- T, the number of errors the code corrects (R7). -/
def correctable : Nat := 3

/-- G, the generator polynomial X^11 + X^10 + X^6 + X^5 + X^4 + X^2 + 1 (R3, R7). -/
def generator : Pattern := 0x0c75

/-- SLT_DEPTH = 2^K entries (R7, R51). -/
def sltDepth : Nat := 4096

/-- EPL_DEPTH = 2^R entries (R7, R52). -/
def eplDepth : Nat := 2048

/-- HIGH_MASK, bits 11 to 31, the divider's loop mask (R7, R101). -/
def highMask : BitVec 32 := 0xfffff800

/-- MARKER_TOP, the bit at which the divider's marker starts (R7, R101). -/
def markerTop : Nat := 22

/-- RESET_STYLE: the polarity of the reset input, whether it is synchronous, and the least time it must be held (D17,
U11), in a unit the spec does not give. -/
structure ResetStyle where
  activeHigh   : Bool
  synchronous  : Bool
  minimumWidth : Nat
  deriving DecidableEq, Repr, Inhabited

/-- RESET_STYLE is OPEN (R8, D17, U11): a parameter that no rule reads. The model's `HostPins.rst` is the logical
level "reset is asserted", whatever the polarity, and that level at one clock edge is a whole reset, whatever the
minimum width (DESIGN CHOICE, log entry 17). -/
opaque resetStyle : ResetStyle

/-- The contents of CMD and RSP after a reset: unspecified (R31, U8). -/
opaque freeCmdOp : Nat → Op
opaque freeCmdArg : Nat → Arg
opaque freeRspStatus : Nat → BitVec 3
opaque freeRspData : Nat → Arg
opaque freeRspCount : Nat → BitVec 2

/-- Entry `i` of SLT and of EPL after a reset: unspecified, one draw per entry (R31, R211, U3). -/
opaque freeSltEntry : Nat → Nat → Pattern
opaque freeEplEntry : Nat → Nat → Pattern

/-- The INIT-sequencer state outside an INIT: unspecified (R29, R31, U9). -/
opaque freeSeqD : Nat → Nat
opaque freeSeqR : Nat → Nat
opaque freeSeqA : Nat → List Nat
opaque freeSeqRemaining : Nat → Nat
opaque freeSeqWritten : Nat → BitVec 2048

/-- What the three response ports carry while `rsp_valid = 0`: unspecified (R26, R219, U7). -/
opaque freePortStatus : Nat → BitVec 3
opaque freePortData : Nat → Arg
opaque freePortCount : Nat → BitVec 2

end Sys2Proof.Config
end

