-- ==== Sys2Proof/Machine/State.lean ====
section
/-! DEFINITION. The state of the block (spec/10_state.md R22, R29), the host's side of its ports (R28, R37), and the
model's own bookkeeping. Plain data throughout. -/

namespace Sys2Proof.Machine

/-- The command-port state machine (R24). -/
inductive Phase where
  /-- The block can accept a command. -/
  | idle
  /-- A command is accepted and its response is not yet formed. -/
  | busy
  /-- A response is held for the host. -/
  | resp
  deriving DecidableEq, Repr

/-- CMD, the accepted command being executed (R25). -/
structure Command where
  op  : Op
  arg : Arg
  deriving DecidableEq, Repr

/-- RSP, the response of the last completed command (R26). `status` is the 3-bit code of R180. -/
structure Response where
  status : BitVec 3
  data   : Arg
  count  : BitVec 2
  deriving DecidableEq, Repr

/-- The statuses a response can have (R180). -/
inductive Status where
  | ok
  | illegalOp
  | invalidInput
  | uninit
  | initFail
  deriving DecidableEq, Repr

/-- A storage array of 2^k entries of 23 bits (R50), kept as a complete binary tree: `lo` holds the lower half of the
indices, `hi` the upper half. The type admits no other shape, so every array has exactly one form and two arrays with
the same entries are the same data. -/
inductive Table : Nat → Type where
  | leaf (v : Pattern) : Table 0
  | node {k : Nat} (lo hi : Table k) : Table (k + 1)
  deriving DecidableEq, Repr

/-- The array whose every entry is `v`. -/
def Table.fill : (k : Nat) → Pattern → Table k
  | 0, v => .leaf v
  | k + 1, v => .node (Table.fill k v) (Table.fill k v)

/-- The two storage arrays, the only memory of the block (R50, R57). -/
structure Memory where
  /-- SLT[0..4095], the syndrome_lookup_table (R51). -/
  slt : Table 12
  /-- EPL[0..2047], the error_pattern_lut (R52). -/
  epl : Table 11
  deriving DecidableEq, Repr

/-- The INIT-sequencer state (R29): not visible at any port, unspecified outside an INIT. -/
structure InitSeq where
  /-- The loop index of step 1. -/
  d         : Nat
  /-- The weight being enumerated. -/
  r         : Nat
  /-- The combination array `a[1..r]`, its first element `a[1]`. -/
  a         : List Nat
  /-- The remaining-call counter. -/
  remaining : Nat
  /-- The coverage bitmap `written[0..2047]` (R130): bit `s` is `written[s]`. -/
  written   : BitVec 2048
  deriving DecidableEq, Repr

/-- The levels the host drives on the block's inputs at one clock edge (R28). `rst` says that reset is asserted. -/
structure HostPins where
  rst      : Bool
  cmdValid : Bool
  cmdOp    : Op
  cmdArg   : Arg
  rspReady : Bool
  deriving DecidableEq, Repr

/-- Inputs on which the host offers nothing, takes nothing and does not reset. -/
def HostPins.quiet : HostPins := ⟨false, false, 0, 0, false⟩

/-- The block, its host, and the model's own fields. -/
structure State where
  /-- Both tables hold their initialised contents (R23). -/
  tablesValid : Bool
  /-- The command-port state machine (R24). -/
  phase       : Phase
  /-- The accepted command (R25). -/
  cmd         : Command
  /-- The response register (R26). -/
  rsp         : Response
  /-- SLT and EPL (R51, R52). -/
  mem         : Memory
  /-- The INIT-sequencer state (R29). -/
  seq         : InitSeq
  /-- The host's inputs at the coming clock edges, the next edge first; quiet when the list is used up (R37). -/
  pins        : List HostPins
  /-- The responses the host has taken, the latest first (R35): the host's record, no reset clears it. -/
  delivered   : List Response
  /-- How many cycles beyond the first each command to come takes, in order of acceptance: the open LAT_INIT and
  LAT_OP as a free schedule (R8, R34, R36, U10); 0 when the list is used up. -/
  latencies   : List Nat
  /-- How many further cycles the command in BUSY takes before its COMPLETE edge. -/
  busyLeft    : Nat
  /-- How many clock edges have passed: the index of the free values of Config. -/
  edge        : Nat
  deriving DecidableEq, Repr

/-- How a step can stop with a fault. -/
inductive Fault where
  /-- Raised by INIT when `next_combination` is called on the last combination and its index reaches `j = 0`
  (spec/41_init.md R124, U4: a model treats this as a fault and gives it no value). INIT makes exactly C(23, r) - 1
  calls per weight, so no step raises it. Safe: the model stops where the spec says the case must not occur. -/
  | enumeratorPastLast
  deriving DecidableEq, Repr

/-- How a step can be refused. -/
inductive Refusal where
  /-- The instruction has no meaning in the model yet. Raised only by an arm of `exec` that rejects its instruction by
  name; no arm does. Safe: the model stops. -/
  | notModelled (mnemonic : String)
  deriving DecidableEq, Repr

/-- The block right after its first reset (R31): `tables_valid = 0`, `phase = IDLE`. CMD, RSP, SLT, EPL and the
INIT-sequencer state are unspecified there; this state holds zeros (DESIGN CHOICE, unsafe, log entry 1). The host
drives nothing, has taken nothing, and no latency is scheduled (log entries 2 and 3). -/
def State.reset : State where
  tablesValid := false
  phase       := .idle
  cmd         := ⟨0, 0⟩
  rsp         := ⟨0, 0, 0⟩
  mem         := ⟨Table.fill 12 0, Table.fill 11 0⟩
  seq         := ⟨0, 0, [], 0, 0⟩
  pins        := []
  delivered   := []
  latencies   := []
  busyLeft    := 0
  edge        := 0

end Sys2Proof.Machine
end

