-- ==== Sys2Proof/Machine/Flags.lean ====
section
/-! DEFINITION. The outcome flags. The block has no condition codes (spec/10_state.md R27): a command's one flag is
`RSP.status`, and the persistent flags are `tables_valid` and `phase`. -/

namespace Sys2Proof.Machine

/-- The code of a status on `rsp_status` (R180). -/
def Status.code : Status → BitVec 3
  | .ok => 0
  | .illegalOp => 1
  | .invalidInput => 2
  | .uninit => 3
  | .initFail => 4

/-- The status a code stands for; 5 to 7 are never produced and stand for none (R180, U13). -/
def Status.ofCode (c : BitVec 3) : Option Status :=
  match c.toFin with
  | 0 => some .ok
  | 1 => some .illegalOp
  | 2 => some .invalidInput
  | 3 => some .uninit
  | 4 => some .initFail
  | 5 => none
  | 6 => none
  | 7 => none

/-- An INIT that will pass its check: the command whose ACCEPT clears `tables_valid` (R33). -/
def Command.isLegalInit (c : Command) : Bool := c.op == 0x1 && c.arg == 0

/-- `tables_valid` after ACCEPT of `c` (R23, R33). -/
def tablesValidAtAccept (c : Command) (tablesValid : Bool) : Bool :=
  if c.isLegalInit then false else tablesValid

/-- The coverage check of INIT: `written[s] = 1` for every s (R130). -/
def covered (written : BitVec 2048) : Bool := written == BitVec.allOnes 2048

end Sys2Proof.Machine
end

