-- ==== Sys2Proof/Machine/Ops.lean ====
section
/-! DEFINITION. The operations the commands share: reads and writes of the two tables (spec/20_memory.md R51, R52, R56,
spec/00_scope.md R12), the Hamming weight (R10), the response and the error response (R12, R183), and the transitions
of the port other than COMPLETE (spec/10_state.md R33, R35, spec/70_reset_and_hazards.md R210). -/

namespace Sys2Proof.Machine

/-- Entry `i` of an array of 2^k entries; `i < 2^k` for every index that can reach one (R55). -/
def Table.read : {k : Nat} → Table k → Nat → Pattern
  | _, .leaf v, _ => v
  | _, .node (k := k) lo hi, i => if i < 2 ^ k then lo.read i else hi.read (i - 2 ^ k)

/-- The array with entry `i` set to `v`. -/
def Table.write : {k : Nat} → Table k → Nat → Pattern → Table k
  | _, .leaf _, _, v => .leaf v
  | _, .node (k := k) lo hi, i, v =>
    if i < 2 ^ k then .node (lo.write i v) hi else .node lo (hi.write (i - 2 ^ k) v)

/-- The array whose entry `i` is `f i`. -/
def Table.ofEntries : (k : Nat) → (Nat → Pattern) → Table k
  | 0, f => .leaf (f 0)
  | k + 1, f => .node (Table.ofEntries k f) (Table.ofEntries k (fun i => f (2 ^ k + i)))

/-- `MemRead(SLT, d)` (R12, R51). -/
def Memory.readSlt (m : Memory) (d : DataWord) : Pattern := m.slt.read d.toNat

/-- `MemRead(EPL, s)` (R12, R52). -/
def Memory.readEpl (m : Memory) (s : Syndrome) : Pattern := m.epl.read s.toNat

/-- `MemWrite(SLT, d, v)` (R12, R51): one whole entry (R56). -/
def Memory.writeSlt (m : Memory) (d : DataWord) (v : Pattern) : Memory :=
  { m with slt := m.slt.write d.toNat v }

/-- `MemWrite(EPL, s, v)` (R12, R52): one whole entry (R56). -/
def Memory.writeEpl (m : Memory) (s : Syndrome) (v : Pattern) : Memory :=
  { m with epl := m.epl.write s.toNat v }

/-- `popcount`, the Hamming weight (R10, R13). -/
def popcount {w : Nat} (v : BitVec w) : Nat := (List.range w).countP (fun i => v.getLsbD i)

/-- `respond(status, data, count)`: completes the current command with one response, the writes of COMPLETE
(R12, R34). -/
def respond (st : Status) (data : Arg) (count : BitVec 2) (s : State) : Host.Outcome State Fault Refusal :=
  .next { s with rsp := ⟨st.code, data, count⟩, phase := .resp }

/-- `raise st`: the error response. It writes nothing but RSP and `phase` (R12, R183). The block has no trap (R190),
so this is all that taking an exception is. -/
def raise (st : Status) (s : State) : Host.Outcome State Fault Refusal := respond st 0 0 s

/-- ACCEPT of the command `c` (R33). The command's latency is the schedule's next (R8, R34). -/
def State.accept (c : Command) (s : State) : State :=
  { s with
    cmd         := c
    tablesValid := tablesValidAtAccept c s.tablesValid
    phase       := .busy
    busyLeft    := s.latencies.headD 0
    latencies   := s.latencies.tail }

/-- DELIVER: the host receives RSP, then `phase` is IDLE (R35). After an error response too this is all: there is no
return from a trap (R191). -/
def State.deliver (s : State) : State :=
  { s with phase := .idle, delivered := s.rsp :: s.delivered }

/-- One clock edge passes: the host's next inputs come up, and the free values are new ones. -/
def State.clocked (s : State) : State := { s with pins := s.pins.tail, edge := s.edge + 1 }

/-- One more cycle of BUSY before COMPLETE (R34). -/
def State.wait (s : State) : State := { s with busyLeft := s.busyLeft - 1 }

/-- Both tables at entries nothing constrains (U3). -/
def Memory.unspecified (edge : Nat) : Memory :=
  ⟨Table.ofEntries 12 (Config.freeSltEntry edge), Table.ofEntries 11 (Config.freeEplEntry edge)⟩

/-- The INIT-sequencer state at a value nothing constrains (R29, U9). -/
def InitSeq.unspecified (edge : Nat) : InitSeq :=
  ⟨Config.freeSeqD edge, Config.freeSeqR edge, Config.freeSeqA edge, Config.freeSeqRemaining edge,
    Config.freeSeqWritten edge⟩

/-- RESET in any phase (R210, R211): `tables_valid = 0` and `phase = IDLE`; every other item of the block is
unspecified (R31), so it takes a free value. A command in BUSY is abandoned and a response in RESP is lost. The
host's inputs, its record and the latencies to come are not the block's, and stay. -/
def State.resetPulse (s : State) : State :=
  { s with
    tablesValid := false
    phase       := .idle
    cmd         := ⟨Config.freeCmdOp s.edge, Config.freeCmdArg s.edge⟩
    rsp         := ⟨Config.freeRspStatus s.edge, Config.freeRspData s.edge, Config.freeRspCount s.edge⟩
    mem         := Memory.unspecified s.edge
    seq         := InitSeq.unspecified s.edge
    busyLeft    := 0 }

end Sys2Proof.Machine
end

