-- ==== Sys2Proof/Machine/Divider.lean ====
section
/-! DEFINITION. gf2_poly_divider and the SYNDROME command (spec/40_divider.md). -/

namespace Sys2Proof.Machine

/-- One step of the division: if bit `k` is set, G shifted so that its top bit (bit 11) cancels it is added (R101). -/
def cancelBit (p : Pattern) (k : Nat) : Pattern :=
  if p.getLsbD k then p ^^^ (Config.generator <<< (k - 11)) else p

/-- `syndrome(p)`, the remainder of `p` divided by G (R100): the loop of R101 unrolled over the bit positions 22 down to
11, as R105 allows. The domain is the type: a 23-bit pattern (R106, U5). -/
def syndrome (p : Pattern) : Syndrome :=
  ([22, 21, 20, 19, 18, 17, 16, 15, 14, 13, 12, 11].foldl cancelBit p).setWidth 11

/-- The inner loop of R101: slide the marker down until it meets a set bit of `p`. `none` when it leaves the word, or
stands below bit 11, where R106 says the source states nothing. -/
def slideMarker : Nat → BitVec 32 → BitVec 32 → Option (BitVec 32)
  | 0, _, _ => none
  | fuel + 1, p, marker =>
    if marker &&& p = 0 then slideMarker fuel p (marker >>> 1)
    else if marker < 0x800#32 then none else some marker

/-- The divider's algorithm as R101 words it, on a 32-bit pattern and with the marker kept between iterations: the
remainder, if the outer loop stops within `n` iterations. The position of the one bit of `marker` is its logarithm. -/
def divideWithin : Nat → BitVec 32 → BitVec 32 → Option Syndrome
  | n, p, marker =>
    if p &&& Config.highMask = 0 then some (p.setWidth 11)
    else
      match n with
      | 0 => none
      | n + 1 =>
        match slideMarker 32 p marker with
        | none => none
        | some m => divideWithin n (p ^^^ (Config.generator.setWidth 32 <<< (m.toNat.log2 - 11))) m

/-- The marker before the first iteration (R101). -/
def markerStart : BitVec 32 := 1#32 <<< Config.markerTop

/-- SYNDROME (R102). It reads neither `tables_valid` nor the tables. -/
def execSyndrome (arg : Arg) (s : State) : Host.Outcome State Fault Refusal :=
  if argLegal syndromeMask arg then respond .ok ((syndrome (patternOf arg)).setWidth 32) 0 s
  else raise .invalidInput s

end Sys2Proof.Machine
end

