-- ==== Sys2Proof/Machine/Codec.lean ====
section
/-! DEFINITION. golay_encoder and golay_decoder: the commands ENCODE and DECODE (spec/42_codec.md). Their checks run in
the order of spec/60_exceptions.md R185: the argument, then `tables_valid`. -/

namespace Sys2Proof.Machine

/-- ENCODE (R150). -/
def execEncode (arg : Arg) (s : State) : Host.Outcome State Fault Refusal :=
  if !argLegal encodeMask arg then raise .invalidInput s
  else if !s.tablesValid then raise .uninit s
  else respond .ok ((s.mem.readSlt (dataOf arg)).setWidth 32) 0 s

/-- DECODE (R152). The pattern of the syndrome is added to the received word; the data are its upper 12 bits and the
count is the weight of the pattern. Nothing is reported for more than 3 errors (R154). -/
def execDecode (arg : Arg) (s : State) : Host.Outcome State Fault Refusal :=
  if !argLegal decodeMask arg then raise .invalidInput s
  else if !s.tablesValid then raise .uninit s
  else
    let e := s.mem.readEpl (syndrome (patternOf arg))
    let c := patternOf arg ^^^ e
    respond .ok ((c >>> 11).setWidth 32) (BitVec.ofNat 2 (popcount e)) s

end Sys2Proof.Machine
end

