-- ==== Sys2Proof/Machine/Reserved.lean ====
section
/-! DEFINITION. The reserved opcodes (spec/30_encoding.md R76, spec/60_exceptions.md R184): each raises ILLEGAL_OP,
whatever `arg` holds and whatever `tables_valid` is. One definition per opcode. -/

namespace Sys2Proof.Machine

/-- The reserved opcode 0x0 (R76, R184). -/
def execReserved0 (_arg : Arg) (s : State) : Host.Outcome State Fault Refusal := raise .illegalOp s

/-- The reserved opcode 0x7 (R76, R184). -/
def execReserved7 (_arg : Arg) (s : State) : Host.Outcome State Fault Refusal := raise .illegalOp s

/-- The reserved opcode 0x8 (R76, R184). -/
def execReserved8 (_arg : Arg) (s : State) : Host.Outcome State Fault Refusal := raise .illegalOp s

/-- The reserved opcode 0x9 (R76, R184). -/
def execReserved9 (_arg : Arg) (s : State) : Host.Outcome State Fault Refusal := raise .illegalOp s

/-- The reserved opcode 0xA (R76, R184). -/
def execReservedA (_arg : Arg) (s : State) : Host.Outcome State Fault Refusal := raise .illegalOp s

/-- The reserved opcode 0xB (R76, R184). -/
def execReservedB (_arg : Arg) (s : State) : Host.Outcome State Fault Refusal := raise .illegalOp s

/-- The reserved opcode 0xC (R76, R184). -/
def execReservedC (_arg : Arg) (s : State) : Host.Outcome State Fault Refusal := raise .illegalOp s

/-- The reserved opcode 0xD (R76, R184). -/
def execReservedD (_arg : Arg) (s : State) : Host.Outcome State Fault Refusal := raise .illegalOp s

/-- The reserved opcode 0xE (R76, R184). -/
def execReservedE (_arg : Arg) (s : State) : Host.Outcome State Fault Refusal := raise .illegalOp s

/-- The reserved opcode 0xF (R76, R184). -/
def execReservedF (_arg : Arg) (s : State) : Host.Outcome State Fault Refusal := raise .illegalOp s

end Sys2Proof.Machine
end

