-- ==== Sys2Proof/Machine/TableBuild.lean ====
section
/-! DEFINITION. INIT: the combination enumerator, the two fill steps and the command (spec/41_init.md). The divider is
a parameter of the fill steps, so that the coverage check and INIT_FAIL can be stated of a faulty one
(spec/95_test_vectors.md 3.5); the block's INIT uses `syndrome`. -/

namespace Sys2Proof.Machine

/-- `to_bitvector(a, r)`: the pattern with exactly the 1-based positions `a` set (R121). -/
def toBitvector (a : List Nat) : Pattern := a.foldl (fun v x => v ||| (1#23 <<< (x - 1))) 0

/-- `a[i]` with `i` counted from 1. -/
def elementAt (a : List Nat) (i : Nat) : Nat := a.getD (i - 1) 0

/-- The `while` of R122, from `j` down: the rightmost position at or below `j` that is not at its largest value
`n - r + j`. `none` when `j` reaches 0: `a[0]` does not exist (R124). -/
def rightmostUnmaxed (n r : Nat) (a : List Nat) : Nat → Option Nat
  | 0 => none
  | j + 1 => if elementAt a (j + 1) = n - r + (j + 1) then rightmostUnmaxed n r a j else some (j + 1)

/-- `next_combination(n, r, a)` (R122). `none` when it is called on the last combination (R124, U4). -/
def nextCombination (n r : Nat) (a : List Nat) : Option (List Nat) :=
  let a := a.set (r - 1) (elementAt a r + 1)
  if elementAt a r ≤ n then some a
  else
    match rightmostUnmaxed n r a (r - 1) with
    | none => none
    | some j =>
      let v := elementAt a j
      some (a.take (j - 1) ++ (List.range (r + 1 - j)).map (fun i => v + 1 + i))

/-- What the fill steps work on: the tables and the sequencer. -/
structure Build where
  mem : Memory
  seq : InitSeq
  deriving DecidableEq, Repr

/-- The entry step 1 stores for `d`: `t ^ syndrome(t)` with `t = d << 11` (R125). -/
def codewordBy (div : Pattern → Syndrome) (d : DataWord) : Pattern :=
  let t : Pattern := d.setWidth 23 <<< 11
  t ^^^ (div t).setWidth 23

/-- The codeword of `d` (R125): what ENCODE answers (R150). -/
def codeword (d : DataWord) : Pattern := codewordBy syndrome d

/-- One round of step 1. -/
def fillSltEntry (div : Pattern → Syndrome) (b : Build) (d : Nat) : Build :=
  { mem := b.mem.writeSlt (BitVec.ofNat 12 d) (codewordBy div (BitVec.ofNat 12 d)), seq := { b.seq with d := d } }

/-- Step 1: fill SLT, `d` ascending (R125). -/
def fillSlt (div : Pattern → Syndrome) (b : Build) : Build :=
  (List.range Config.sltDepth).foldl (fillSltEntry div) b

/-- `put(e)` (R127): a later put to the same slot overwrites. -/
def put (div : Pattern → Syndrome) (b : Build) (e : Pattern) : Build :=
  { mem := b.mem.writeEpl (div e) e
    seq := { b.seq with written := b.seq.written ||| (1#2048 <<< (div e).toNat) } }

/-- Weight 0 of step 2: the bitmap is cleared and slot 0 takes the zero pattern (R128). -/
def putWeightZero (b : Build) : Build :=
  { mem := b.mem.writeEpl 0 0, seq := { b.seq with written := 1#2048 } }

/-- Weight 1 of step 2: the single bits, positions 0 to 22 (R128). -/
def putWeightOne (div : Pattern → Syndrome) (b : Build) : Build :=
  (List.range Config.codeLength).foldl (fun b k => put div b (1#23 <<< k)) b

/-- The calls of `next_combination` that remain for weight `r` after the combination `a`, each followed by a `put`
(R128). -/
def putRemaining (div : Pattern → Syndrome) (r : Nat) : Nat → List Nat → Build → Option Build
  | 0, _, b => some b
  | calls + 1, a, b =>
    match nextCombination Config.codeLength r a with
    | none => none
    | some next =>
      putRemaining div r calls next
        (put div { b with seq := { b.seq with a := next, remaining := calls } } (toBitvector next))

/-- Weight `r` of step 2 for r = 2 and 3: the seed (1, ..., r), its `put`, and exactly C(23, r) - 1 further
combinations (R123, R128). -/
def putWeight (div : Pattern → Syndrome) (r : Nat) (b : Build) : Option Build :=
  let seed := (List.range r).map (· + 1)
  let calls := Nat.choose Config.codeLength r - 1
  putRemaining div r calls seed
    (put div { b with seq := { b.seq with r := r, a := seed, remaining := calls } } (toBitvector seed))

/-- Step 2: fill EPL (R128). -/
def fillEpl (div : Pattern → Syndrome) (b : Build) : Option Build :=
  (putWeight div 2 (putWeightOne div (putWeightZero b))).bind (putWeight div 3)

/-- Both fill steps (R133). -/
def buildTables (div : Pattern → Syndrome) (m : Memory) (q : InitSeq) : Option Build :=
  fillEpl div (fillSlt div ⟨m, q⟩)

/-- INIT past its argument check, with the divider `div` (R132, R133). OK sets `tables_valid`; INIT_FAIL leaves it as
ACCEPT set it and leaves the tables as the steps wrote them, as R132 says; U3 calls them unspecified after INIT_FAIL,
and the model follows the rule (DESIGN CHOICE, unsafe, log entry 19). Outside an INIT the sequencer state is unspecified (R29). -/
def runInit (div : Pattern → Syndrome) (s : State) : Host.Outcome State Fault Refusal :=
  match buildTables div s.mem s.seq with
  | none => .fault .enumeratorPastLast
  | some b =>
    respond (if covered b.seq.written then .ok else .initFail) 0 0
      { s with
        mem         := b.mem
        seq         := InitSeq.unspecified s.edge
        tablesValid := if covered b.seq.written then true else s.tablesValid }

/-- INIT (R133). -/
def execInit (arg : Arg) (s : State) : Host.Outcome State Fault Refusal :=
  if argLegal initMask arg then runInit syndrome s else raise .invalidInput s

end Sys2Proof.Machine
end

