-- ==== Sys2Proof/Machine/TableRead.lean ====
section
/-! DEFINITION. The table read commands RD_SLT and RD_EPL (spec/43_table_read.md). -/

namespace Sys2Proof.Machine

/-- RD_SLT (R170, R171). -/
def execRdSlt (arg : Arg) (s : State) : Host.Outcome State Fault Refusal :=
  if !argLegal rdSltMask arg then raise .invalidInput s
  else if !s.tablesValid then raise .uninit s
  else respond .ok ((s.mem.readSlt (dataOf arg)).setWidth 32) 0 s

/-- RD_EPL (R172, R173). The weight of the pattern is not reported: `count` is 0. -/
def execRdEpl (arg : Arg) (s : State) : Host.Outcome State Fault Refusal :=
  if !argLegal rdEplMask arg then raise .invalidInput s
  else if !s.tablesValid then raise .uninit s
  else respond .ok ((s.mem.readEpl (indexOf arg)).setWidth 32) 0 s

end Sys2Proof.Machine
end

