-- ==== Sys2Proof/Machine/Dispatch.lean ====
section
/-! DEFINITION. `execute(CMD)` (spec/30_encoding.md R74): one arm per command. -/

namespace Sys2Proof.Machine

/-- What COMPLETE does with the accepted command (R34, R74). -/
def exec (i : Instr) (s : State) : Host.Outcome State Fault Refusal :=
  match i with
  | .init arg => Sys2Proof.Machine.execInit arg s
  | .encode arg => Sys2Proof.Machine.execEncode arg s
  | .decode arg => Sys2Proof.Machine.execDecode arg s
  | .syndrome arg => Sys2Proof.Machine.execSyndrome arg s
  | .rdSlt arg => Sys2Proof.Machine.execRdSlt arg s
  | .rdEpl arg => Sys2Proof.Machine.execRdEpl arg s
  | .reserved0 arg => Sys2Proof.Machine.execReserved0 arg s
  | .reserved7 arg => Sys2Proof.Machine.execReserved7 arg s
  | .reserved8 arg => Sys2Proof.Machine.execReserved8 arg s
  | .reserved9 arg => Sys2Proof.Machine.execReserved9 arg s
  | .reservedA arg => Sys2Proof.Machine.execReservedA arg s
  | .reservedB arg => Sys2Proof.Machine.execReservedB arg s
  | .reservedC arg => Sys2Proof.Machine.execReservedC arg s
  | .reservedD arg => Sys2Proof.Machine.execReservedD arg s
  | .reservedE arg => Sys2Proof.Machine.execReservedE arg s
  | .reservedF arg => Sys2Proof.Machine.execReservedF arg s

end Sys2Proof.Machine
end

