-- ==== Sys2Proof/Machine/Ports.lean ====
section
/-! DEFINITION. The block's ports (spec/10_state.md R28): the inputs the host drives at the coming edge, and the outputs
the block drives meanwhile. -/

namespace Sys2Proof.Machine

/-- The inputs at the coming clock edge. -/
def State.inputs (s : State) : HostPins := s.pins.headD HostPins.quiet

/-- The command the host offers on `cmd_op` and `cmd_arg`. -/
def HostPins.command (p : HostPins) : Command := ⟨p.cmdOp, p.cmdArg⟩

/-- The levels on the block's outputs (R28). -/
structure BlockPins where
  cmdReady       : Bool
  rspValid       : Bool
  rspStatus      : BitVec 3
  rspData        : Arg
  rspCount       : BitVec 2
  stsTablesValid : Bool
  stsBusy        : Bool
  deriving DecidableEq, Repr

/-- `rsp_valid`: a response is held and reset is not asserted (R28, R210). -/
def State.rspValid (s : State) : Bool := s.phase == .resp && !s.inputs.rst

/-- The outputs (R28). The response ports present RSP while `rsp_valid = 1`; at other times, reset asserted in RESP among
them, they carry values nothing constrains (R26, R219, U7; DEDUCED, log entry 6). While reset is asserted `cmd_ready`
and `rsp_valid` are 0 (R210). -/
def State.outputs (s : State) : BlockPins where
  cmdReady       := s.phase == .idle && !s.inputs.rst
  rspValid       := s.rspValid
  rspStatus      := if s.rspValid then s.rsp.status else Config.freePortStatus s.edge
  rspData        := if s.rspValid then s.rsp.data else Config.freePortData s.edge
  rspCount       := if s.rspValid then s.rsp.count else Config.freePortCount s.edge
  stsTablesValid := s.tablesValid
  stsBusy        := s.phase != .idle

/-- What a host may observe: the outputs, and the response ports only while `rsp_valid = 1` (R219, U7). -/
structure Observation where
  cmdReady       : Bool
  response       : Option Response
  stsTablesValid : Bool
  stsBusy        : Bool
  deriving DecidableEq, Repr

/-- The host's view of the block. -/
def State.observe (s : State) : Observation where
  cmdReady       := s.outputs.cmdReady
  response       :=
    if s.outputs.rspValid then some ⟨s.outputs.rspStatus, s.outputs.rspData, s.outputs.rspCount⟩ else none
  stsTablesValid := s.outputs.stsTablesValid
  stsBusy        := s.outputs.stsBusy

end Sys2Proof.Machine
end

