-- ==== Sys2Proof/Machine/Transitions.lean ====
section
/-! DEFINITION. The transitions of the block at one clock edge (spec/10_state.md R32): at most one of RESET, ACCEPT,
COMPLETE and DELIVER. -/

namespace Sys2Proof.Machine

/-- The command that CMD holds (R74). -/
def Command.instr (c : Command) : Instr := decodeCommand c.op c.arg

/-- In IDLE: ACCEPT if the host offers a command (R33). -/
def stepIdle (p : HostPins) (s : State) : Host.Outcome State Fault Refusal :=
  .next (if p.cmdValid then s.accept p.command else s)

/-- In BUSY: COMPLETE, once the command's latency has passed (R34). -/
def stepBusy (s : State) : Host.Outcome State Fault Refusal :=
  if s.busyLeft = 0 then exec s.cmd.instr s else .next s.wait

/-- In RESP: DELIVER if the host takes the response; otherwise RSP is held (R35). -/
def stepResp (p : HostPins) (s : State) : Host.Outcome State Fault Refusal :=
  .next (if p.rspReady then s.deliver else s)

/-- The transition at an edge at which the host drives `p`: RESET whenever it is asserted, else that of the phase
(R32, R210). Reset asserted at one edge is a whole reset: the minimum width, which RESET_STYLE leaves OPEN, is not read
(D17, U11; DESIGN CHOICE, unsafe, log entry 17). -/
def transition (p : HostPins) (s : State) : Host.Outcome State Fault Refusal :=
  if p.rst then .next s.resetPulse
  else
    match s.phase with
    | .idle => stepIdle p s
    | .busy => stepBusy s
    | .resp => stepResp p s

/-- The command word `cw` accepted and due: what ACCEPT of it makes of the block in IDLE, with its latency passed and
the inputs quiet at the coming edge. -/
def State.acceptDue (cw : CommandWord) (s : State) : State :=
  { s.accept ⟨opField cw, argField cw⟩ with
    latencies := s.latencies
    busyLeft  := 0
    pins      := HostPins.quiet :: s.pins }

end Sys2Proof.Machine
end

