-- ==== Sys2Proof/Machine/Step.lean ====
section
/-! DEFINITION. One step of the machine: one clock edge (spec/10_state.md R28, R32). -/

namespace Sys2Proof.Machine

/-- One clock edge: the host's inputs are sampled and one transition is made. -/
def step (s : State) : Host.Outcome State Fault Refusal := transition s.inputs s.clocked

/-- `s` with the command of the table word `w` in CMD, accepted and due, so that the next step is its COMPLETE. The
block fetches nothing (R21): a command comes to it by ACCEPT alone, and this stands for that ACCEPT. -/
def State.withFetchWord (s : State) (nbits w : Nat) : State := s.acceptDue (BitVec.ofNat 36 (w % 2 ^ nbits))

end Sys2Proof.Machine
end

