-- ==== Sys2Proof/Machine/Assembler.lean ====
section
/-! DEFINITION. The text syntax of commands (spec/30_encoding.md R78): one command a line, a mnemonic, its operand if
it takes one, and a comment. The text is no part of the device; this fixes which command word a line stands for. A
line is a list of characters. -/

namespace Sys2Proof.Machine

/-- Why a line is no command. -/
inductive AsmError where
  /-- The line holds no mnemonic. -/
  | noMnemonic
  /-- The mnemonic is none of R78's. -/
  | unknownMnemonic
  /-- A mnemonic other than INIT without its operand. -/
  | missingOperand
  /-- INIT with an operand, or any other mnemonic with more than one. -/
  | extraOperand
  /-- The operand is no decimal or 0x-prefixed hexadecimal literal. -/
  | badLiteral
  /-- The operand is 2^32 or more. -/
  | literalTooWide
  /-- A `.word` operand that is not 0x, one hexadecimal digit, an underscore and eight hexadecimal digits. -/
  | badWord
  deriving DecidableEq, Repr

/-- The line without its comment: everything before the first `//`. -/
def stripComment : List Char → List Char
  | [] => []
  | '/' :: '/' :: _ => []
  | c :: cs => c :: stripComment cs

/-- The words of a line, which spaces and tabs separate. -/
def lineWords : List Char → List (List Char)
  | [] => []
  | c :: cs =>
    if c = ' ' ∨ c = '\t' then lineWords cs
    else
      match cs, lineWords cs with
      | d :: _, w :: ws => if d = ' ' ∨ d = '\t' then [c] :: w :: ws else (c :: w) :: ws
      | _, ws => [c] :: ws

/-- The value of a digit in the given base, at most 16. -/
def digitValue (base : Nat) (c : Char) : Option Nat :=
  let n := c.toNat
  let v :=
    if 48 ≤ n ∧ n ≤ 57 then n - 48
    else if 65 ≤ n ∧ n ≤ 70 then n - 55
    else if 97 ≤ n ∧ n ≤ 102 then n - 87
    else 16
  if v < base then some v else none

/-- The number that a nonempty list of digits denotes. -/
def digitsValue (base : Nat) (acc : Nat) : List Char → Option Nat
  | [] => none
  | [c] => (digitValue base c).map (fun v => acc * base + v)
  | c :: cs =>
    match digitValue base c with
    | none => none
    | some v => digitsValue base (acc * base + v) cs

/-- An integer literal: decimal, or hexadecimal after `0x` (R78). -/
def literalValue : List Char → Option Nat
  | '0' :: 'x' :: ds => digitsValue 16 0 ds
  | ds => digitsValue 10 0 ds

/-- An operand, assembled into `arg` unchanged: 0 to 2^32 - 1, the legal range of the command or not (R78). -/
def operandArg (w : List Char) : Except AsmError Arg :=
  match literalValue w with
  | none => .error .badLiteral
  | some n => if n < 2 ^ 32 then .ok (BitVec.ofNat 32 n) else .error .literalTooWide

/-- The command of a mnemonic that takes one operand (R78). -/
def withOperand (mk : Arg → Instr) : List (List Char) → Except AsmError Instr
  | [] => .error .missingOperand
  | [w] => (operandArg w).map mk
  | _ => .error .extraOperand

/-- The command of `.word 0x<op>_<arg as 8 hex digits>` (R70, R78): the spelling of the reserved opcodes. -/
def wordCommand : List (List Char) → Except AsmError Instr
  | [] => .error .missingOperand
  | ['0' :: 'x' :: o :: '_' :: ds] =>
    match digitValue 16 o, digitsValue 16 0 ds with
    | some op, some arg =>
      if ds.length = 8 then .ok (decodeCommand (BitVec.ofNat 4 op) (BitVec.ofNat 32 arg)) else .error .badWord
    | _, _ => .error .badWord
  | [_] => .error .badWord
  | _ => .error .extraOperand

/-- The command that a line of text stands for (R78). -/
def assembleLine (line : List Char) : Except AsmError Instr :=
  match lineWords (stripComment line) with
  | [] => .error .noMnemonic
  | m :: ws =>
    if m = ['I', 'N', 'I', 'T'] then
      match ws with
      | [] => .ok (.init 0)
      | _ => .error .extraOperand
    else if m = ['E', 'N', 'C', 'O', 'D', 'E'] then withOperand .encode ws
    else if m = ['D', 'E', 'C', 'O', 'D', 'E'] then withOperand .decode ws
    else if m = ['S', 'Y', 'N', 'D', 'R', 'O', 'M', 'E'] then withOperand .syndrome ws
    else if m = ['R', 'D', '_', 'S', 'L', 'T'] then withOperand .rdSlt ws
    else if m = ['R', 'D', '_', 'E', 'P', 'L'] then withOperand .rdEpl ws
    else if m = ['.', 'w', 'o', 'r', 'd'] then wordCommand ws
    else .error .unknownMnemonic

end Sys2Proof.Machine
end

