-- ==== Sys2Proof/Safety.lean ====
section
/-! DEFINITION. What a safe state of the block is, in the terms the statements use: the tables hold their contents
whenever `tables_valid` says so (spec/20_memory.md R53), no INIT runs over valid tables (spec/41_init.md R131), and a
held response is the answer to the accepted command. At the end, what a line of command text is made of
(spec/30_encoding.md R78). -/

namespace Sys2Proof.Machine

/-- Both tables hold what a successful INIT leaves: SLT the codewords (R51, R125), EPL for every syndrome a pattern of
weight at most 3 with that syndrome (R52, R128, R53 (e), (f)). -/
def TablesBuilt (m : Memory) : Prop :=
  (∀ d : DataWord, m.readSlt d = codeword d) ∧
  (∀ x : Syndrome, syndrome (m.readEpl x) = x ∧ popcount (m.readEpl x) ≤ Config.correctable)

/-- `r` is a correct decoding of the received word `rx`: some error pattern of weight at most 3 with the syndrome of
`rx` is removed, and its weight reported (R152, R154). -/
def Decodes (rx : Pattern) (r : Response) : Prop :=
  ∃ e : Pattern, syndrome e = syndrome rx ∧ popcount e ≤ Config.correctable ∧
    r = ⟨0, ((rx ^^^ e) >>> 11).setWidth 32, BitVec.ofNat 2 (popcount e)⟩

/-- The error response of status `st` (R183). -/
def errorResponse (st : Status) : Response := ⟨st.code, 0, 0⟩

/-- `r` answers the command `i` when `tables_valid` is `tv` after it: what the block must respond, said of the code
alone and of no table (R102, R133, R150, R152, R170, R172, R184, priority R185). -/
def Answers (i : Instr) (tv : Bool) (r : Response) : Prop :=
  match i with
  | .init a => if argLegal initMask a then r = ⟨0, 0, 0⟩ ∧ tv = true else r = errorResponse .invalidInput
  | .encode a =>
    if !argLegal encodeMask a then r = errorResponse .invalidInput
    else if !tv then r = errorResponse .uninit
    else r = ⟨0, (codeword (dataOf a)).setWidth 32, 0⟩
  | .decode a =>
    if !argLegal decodeMask a then r = errorResponse .invalidInput
    else if !tv then r = errorResponse .uninit
    else Decodes (patternOf a) r
  | .syndrome a =>
    if !argLegal syndromeMask a then r = errorResponse .invalidInput
    else r = ⟨0, (syndrome (patternOf a)).setWidth 32, 0⟩
  | .rdSlt a =>
    if !argLegal rdSltMask a then r = errorResponse .invalidInput
    else if !tv then r = errorResponse .uninit
    else r = ⟨0, (codeword (dataOf a)).setWidth 32, 0⟩
  | .rdEpl a =>
    if !argLegal rdEplMask a then r = errorResponse .invalidInput
    else if !tv then r = errorResponse .uninit
    else ∃ e : Pattern, syndrome e = indexOf a ∧ popcount e ≤ Config.correctable ∧ r = ⟨0, e.setWidth 32, 0⟩
  | .reserved0 _ | .reserved7 _ | .reserved8 _ | .reserved9 _ | .reservedA _
  | .reservedB _ | .reservedC _ | .reservedD _ | .reservedE _ | .reservedF _ => r = errorResponse .illegalOp

/-- `s` once the current command is completed with the response `r` and nothing else is written (R34, R183). -/
def State.responded (r : Response) (s : State) : State := { s with rsp := r, phase := .resp }

/-- The invariant of the block. -/
structure State.Inv (s : State) : Prop where
  /-- Whenever `tables_valid = 1`, both tables hold their contents (R53). -/
  tables   : s.tablesValid = true → TablesBuilt s.mem
  /-- `tables_valid` is 0 for the whole INIT (R131). -/
  building : s.phase = .busy → s.cmd.isLegalInit = true → s.tablesValid = false
  /-- A held response answers the accepted command (R26, R34). -/
  response : s.phase = .resp → Answers s.cmd.instr s.tablesValid s.rsp

/-- Two states of the block that agree on everything a reset, or a command since, has specified: they may differ in
CMD while it is IDLE, in RSP while no response is held, in the tables while `tables_valid = 0`, in the INIT-sequencer
state and in the free values to come (R31, U3, U7, U8, U9). -/
structure State.SameSpecified (s t : State) : Prop where
  tablesValid : s.tablesValid = t.tablesValid
  phase       : s.phase = t.phase
  cmd         : s.phase ≠ .idle → s.cmd = t.cmd
  rsp         : s.phase = .resp → s.rsp = t.rsp
  mem         : s.tablesValid = true → s.mem = t.mem
  pins        : s.pins = t.pins
  delivered   : s.delivered = t.delivered
  latencies   : s.latencies = t.latencies
  busyLeft    : s.phase = .busy → s.busyLeft = t.busyLeft

/-- How many responses the block owes its host: one while a command is in BUSY or RESP (R37). -/
def State.owed (s : State) : Nat := if s.phase = .idle then 0 else 1

/-- Whether the coming edge is an ACCEPT (R33). -/
def State.accepts (s : State) : Bool := !s.inputs.rst && s.phase == .idle && s.inputs.cmdValid

/-- Whether the coming edge is the COMPLETE of an INIT with a legal argument (R34, R133). -/
def State.completesInit (s : State) : Bool :=
  !s.inputs.rst && s.phase == .busy && s.busyLeft == 0 && s.cmd.isLegalInit

/-- The next `n` edges bring no reset. -/
def State.noResetFor (n : Nat) (s : State) : Prop := ∀ p ∈ s.pins.take n, p.rst = false

/-- `q` times G over GF(2): the shifted generators of the set bits of `q` added up (R10, R100). -/
def timesG (q : DataWord) : Pattern :=
  (List.range Config.dataLength).foldl (fun v i => if q.getLsbD i then v ^^^ (Config.generator <<< i) else v) 0

/-- A combination of `r` positions out of 1..n: `a[1] < ... < a[r]`, all in 1..n (R122). -/
abbrev IsCombination (n r : Nat) (a : List Nat) : Prop :=
  a.length = r ∧ a.Pairwise (· < ·) ∧ ∀ x ∈ a, 1 ≤ x ∧ x ≤ n

/-- The last combination, (n-r+1, ..., n) (R123). -/
def lastCombination (n r : Nat) : List Nat := (List.range r).map (n - r + 1 + ·)

/-- The slot that step 2 writes the pattern `e` into: slot 0 for the zero pattern, else that of its remainder under
`div` (R127, R128). -/
def slotOf (div : Pattern → Syndrome) (e : Pattern) : Syndrome := if e = 0 then 0 else div e

/-- The combination after `k` calls of `next_combination` on the seed (1, ..., r) (R123). -/
def combinationAfter (n r : Nat) : Nat → Option (List Nat)
  | 0 => some ((List.range r).map (· + 1))
  | k + 1 => (combinationAfter n r k).bind (nextCombination n r)

/-! Text. -/

/-- A word of a line: not empty, and without the characters that end a word. -/
def IsWord (w : List Char) : Prop := w ≠ [] ∧ ∀ c ∈ w, c ≠ ' ' ∧ c ≠ '\t' ∧ c ≠ '/'

/-- `c` is the digit of value `d` in base `base`, a capital letter or a small one (log entry 13). -/
def SpellsDigit (base : Nat) (c : Char) (d : Nat) : Prop :=
  d < base ∧ (c = Nat.digitChar d ∨ c = (Nat.digitChar d).toUpper)

/-- `cs` is a nonempty row of digits of base `base` that denotes `n`, the most significant digit first. -/
def IsNumeral (base : Nat) (cs : List Char) (n : Nat) : Prop :=
  ∃ ds : List Nat, ds ≠ [] ∧ List.Forall₂ (SpellsDigit base) cs ds ∧ n = ds.foldl (fun v d => v * base + d) 0

/-- `w` is an integer literal that denotes `n`: decimal, or hexadecimal after `0x` (R78). -/
def IsLiteral (w : List Char) (n : Nat) : Prop :=
  IsNumeral 10 w n ∨ ∃ cs, w = '0' :: 'x' :: cs ∧ IsNumeral 16 cs n

/-- The mnemonics that take an operand, each with its command (R73, R78). -/
def operandMnemonics : List (List Char × (Arg → Instr)) :=
  [(['E', 'N', 'C', 'O', 'D', 'E'], .encode), (['D', 'E', 'C', 'O', 'D', 'E'], .decode),
    (['S', 'Y', 'N', 'D', 'R', 'O', 'M', 'E'], .syndrome), (['R', 'D', '_', 'S', 'L', 'T'], .rdSlt),
    (['R', 'D', '_', 'E', 'P', 'L'], .rdEpl)]

end Sys2Proof.Machine
end

