-- ==== Sys2Proof/Certificates/Slice0/Obligations.lean ====
section
/-! DEFINITION. The statements for the provers, from the numbered rules of spec/. `State.responded r s` is `s` with
RSP = `r` and phase = RESP; status codes are 0 OK, 1 ILLEGAL_OP, 2 INVALID_INPUT, 3 UNINIT, 4 INIT_FAIL (R180). -/

open Sys2Proof Sys2Proof.Machine

/-- For every command, with every argument, decoding its command word gives it back; and every 36-bit word is the
encoding of the command it decodes to. (30_encoding.md R70, 30_encoding.md R73, 30_encoding.md R77) -/
def Obligations.DecodeEncodeRoundTrip : Prop :=
  (∀ i : Instr, decodeWord (encode i) = i) ∧ (∀ cw : CommandWord, encode (decodeWord cw) = cw)

/-- The command a word decodes to has the opcode in bits 35:32, so that two words with the same op field decode to the
same command of the map, whatever the rest holds; its argument is bits 31:0 unchanged. (R71) -/
def Obligations.OpFieldAloneSelects : Prop :=
  ∀ cw : CommandWord,
    (decodeWord cw).opcode = cw.extractLsb' 32 4 ∧ (decodeWord cw).arg = cw.extractLsb' 0 32 ∧
    ∀ cw' : CommandWord, opField cw = opField cw' → (decodeWord cw).opcode = (decodeWord cw').opcode

/-- Words written out from the spec decode to their commands: INIT, ENCODE 1, DECODE 0xC74, SYNDROME 0x800, RD_SLT
0x800, RD_EPL 0x475, and one word of each of the ten reserved opcodes. Every number of more than 36 bits is no
command word: that the decoder refuses such a number is the model's reading of R77 (DEDUCED, log entry 18).
(30_encoding.md R70, 30_encoding.md R73, 30_encoding.md R77, 95_test_vectors.md section 3, log entry 18) -/
def Obligations.OpcodeTableWordsDecode : Prop :=
  decodeTableWord 40 0x100000000 = some (.init 0) ∧
  decodeTableWord 40 0x200000001 = some (.encode 1) ∧
  decodeTableWord 40 0x300000C74 = some (.decode 0xC74) ∧
  decodeTableWord 40 0x400000800 = some (.syndrome 0x800) ∧
  decodeTableWord 40 0x500000800 = some (.rdSlt 0x800) ∧
  decodeTableWord 40 0x600000475 = some (.rdEpl 0x475) ∧
  decodeTableWord 40 0x000000000 = some (.reserved0 0) ∧
  decodeTableWord 40 0x700000000 = some (.reserved7 0) ∧
  decodeTableWord 40 0x812345678 = some (.reserved8 0x12345678) ∧
  decodeTableWord 40 0x900001000 = some (.reserved9 0x1000) ∧
  decodeTableWord 40 0xA00000001 = some (.reservedA 1) ∧
  decodeTableWord 40 0xB80000000 = some (.reservedB 0x80000000) ∧
  decodeTableWord 40 0xC00000C74 = some (.reservedC 0xC74) ∧
  decodeTableWord 40 0xD007FFFFF = some (.reservedD 0x7FFFFF) ∧
  decodeTableWord 40 0xE00000000 = some (.reservedE 0) ∧
  decodeTableWord 40 0xFFFFFFFFF = some (.reservedF 0xFFFFFFFF) ∧
  ∀ nbits w : Nat, 2 ^ 36 ≤ w → w < 2 ^ nbits → decodeTableWord nbits w = none

/-- In BUSY and without reset, when no latency is left a step is exec of the command that CMD.op and CMD.arg decode to,
at the state with the clock edge passed: it answers next with a response held in RESP, and only a legal INIT writes
anything else (R34). While latency is left a step only counts it down; that clause is the model's choice, since the
count is its form of the open latency (DESIGN CHOICE, log entry 2) and a waiting INIT writes no table yet (DEDUCED,
log entry 7). (10_state.md R34, 30_encoding.md R74, log entry 2, log entry 7) -/
def Obligations.StepCompletesDecodedCommand : Prop :=
  ∀ s : State, s.phase = .busy → s.inputs.rst = false →
    (s.busyLeft = 0 → step s = exec (decodeCommand s.cmd.op s.cmd.arg) s.clocked ∧
      ∃ t, step s = .next t ∧ t.phase = .resp ∧
        (decodeCommand s.cmd.op s.cmd.arg ≠ .init 0 → t = s.clocked.responded t.rsp)) ∧
    (s.busyLeft ≠ 0 → step s = .next s.clocked.wait)

/-- If a table word decodes to i, the step after withFetchWord is exec of i at the state ACCEPT of that word makes, with
the latency schedule untouched (the model's stand-in for ACCEPT, log entry 4). (10_state.md R33, 10_state.md R34,
log entry 4) -/
def Obligations.FetchWordRunsNext : Prop :=
  ∀ (s : State) (nbits w : Nat) (i : Instr), decodeTableWord nbits w = some i →
    step (s.withFetchWord nbits w) =
      exec i { s.accept ⟨i.opcode, i.arg⟩ with
        latencies := s.latencies, busyLeft := 0, edge := s.edge + 1 }

/-- In IDLE, without reset and with cmd_valid = 1, a step answers next: CMD is the offered op and arg, tables_valid is
cleared exactly for op 0x1 with arg 0, phase is BUSY, and RSP, the tables, the sequencer and the host's record are
unchanged. (R33) -/
def Obligations.AcceptTakesTheOfferedCommand : Prop :=
  ∀ s : State, s.phase = .idle → s.inputs.rst = false → s.inputs.cmdValid = true →
    ∃ t, step s = .next t ∧
      t.cmd = ⟨s.inputs.cmdOp, s.inputs.cmdArg⟩ ∧
      t.tablesValid = (if s.inputs.cmdOp = 0x1 ∧ s.inputs.cmdArg = 0 then false else s.tablesValid) ∧
      t.phase = .busy ∧ t.rsp = s.rsp ∧ t.mem = s.mem ∧ t.seq = s.seq ∧ t.delivered = s.delivered ∧
      t.pins = s.pins.tail

/-- In RESP and without reset: with rsp_ready = 1 a step answers next, the host has received RSP, phase is IDLE and
every other item of the block is unchanged; with rsp_ready = 0 the step changes nothing, whatever command the host
offers. (R35) -/
def Obligations.DeliverHandsRspToTheHost : Prop :=
  ∀ s : State, s.phase = .resp → s.inputs.rst = false →
    (s.inputs.rspReady = true →
      step s = .next { s with
        phase := .idle, delivered := s.rsp :: s.delivered, pins := s.pins.tail, edge := s.edge + 1 }) ∧
    (s.inputs.rspReady = false → step s = .next { s with pins := s.pins.tail, edge := s.edge + 1 })

/-- In IDLE, without reset and without a command offered, a step changes nothing of the block: in particular after reset
no INIT starts by itself. (70_reset_and_hazards.md R214, 10_state.md R32) -/
def Obligations.IdleWaitsForTheHost : Prop :=
  ∀ s : State, s.phase = .idle → s.inputs.rst = false → s.inputs.cmdValid = false →
    step s = .next { s with pins := s.pins.tail, edge := s.edge + 1 }

/-- While reset is asserted cmd_ready and rsp_valid are 0 and, in whichever phase, a step leaves tables_valid = 0 and
phase IDLE: no command is accepted, completed or delivered, so the host's record is unchanged (R210, R211). That the
schedule of latencies stays is the model's choice (DESIGN CHOICE, log entry 5), as are the list of host inputs,
which moves on (log entry 3), and that reset asserted at one edge is a whole reset, the OPEN minimum width not read
(log entry 17). (70_reset_and_hazards.md R210, 70_reset_and_hazards.md R211, log entry 3, log entry 5, log entry 17) -/
def Obligations.ResetFromAnyPhase : Prop :=
  ∀ s : State, s.inputs.rst = true →
    s.outputs.cmdReady = false ∧ s.outputs.rspValid = false ∧
    ∃ t, step s = .next t ∧ t.tablesValid = false ∧ t.phase = .idle ∧ t.delivered = s.delivered ∧
      t.latencies = s.latencies ∧ t.pins = s.pins.tail

/-- State.reset has tables_valid = 0 and phase IDLE, the two values the spec gives, so the host observes a block that is
ready, not busy, without a response and without valid tables. (10_state.md R31, 10_state.md R28) -/
def Obligations.ResetStateAsTheSpecGivesIt : Prop :=
  State.reset.tablesValid = false ∧ State.reset.phase = .idle ∧
  State.reset.observe = ⟨true, none, false, false⟩

/-- cmd_ready is 1 exactly in IDLE without reset; rsp_valid exactly in RESP (without reset, R210); sts_tables_valid is
tables_valid; sts_busy is 1 exactly when phase is not IDLE; while rsp_valid = 1 the three response ports carry RSP,
and at other times nothing is said of them (R219; that reset asserted takes rsp_valid, and with it their meaning,
away in RESP is DEDUCED, log entry 6). (10_state.md R28, 10_state.md R24, 10_state.md R26, 70_reset_and_hazards.md
R210, 70_reset_and_hazards.md R219, log entry 6) -/
def Obligations.OutputsFollowTheState : Prop :=
  ∀ s : State,
    (s.outputs.cmdReady = true ↔ s.phase = .idle ∧ s.inputs.rst = false) ∧
    (s.outputs.rspValid = true ↔ s.phase = .resp ∧ s.inputs.rst = false) ∧
    s.outputs.stsTablesValid = s.tablesValid ∧
    (s.outputs.stsBusy = true ↔ s.phase ≠ .idle) ∧
    (s.outputs.rspValid = true → s.outputs.rspStatus = s.rsp.status ∧ s.outputs.rspData = s.rsp.data ∧
      s.outputs.rspCount = s.rsp.count)

/-- At every step without reset, the number of responses delivered plus the one still owed (in BUSY or RESP) grows by
one exactly when the step is an ACCEPT, and stays the same otherwise; a response is delivered only as RSP, the
latest first. (10_state.md R37, 10_state.md R32) -/
def Obligations.OneResponsePerAcceptedCommand : Prop :=
  ∀ s t : State, s.inputs.rst = false → step s = .next t →
    t.delivered.length + t.owed = s.delivered.length + s.owed + (if s.accepts then 1 else 0) ∧
    (t.delivered = s.delivered ∨ t.delivered = s.rsp :: s.delivered)

/-- From every state of the invariant in BUSY, whatever finite latency is left, if the next edges bring no reset then
after that many steps and one more the block is in RESP, CMD is unchanged, and RSP answers the command (Answers:
said of the code alone). The latency schedule is the model's form of the open LAT_INIT and LAT_OP (log entry 2).
(10_state.md R34, 10_state.md R36, 00_scope.md R8, log entry 2) -/
def Obligations.CommandCompletesWithinItsLatency : Prop :=
  ∀ s : State, s.Inv → s.phase = .busy → s.noResetFor (s.busyLeft + 1) →
    ∃ t, Sys2Proof.core.run (s.busyLeft + 1) s = .next t ∧ t.phase = .resp ∧ t.cmd = s.cmd ∧
      t.delivered = s.delivered ∧ Answers (decodeCommand s.cmd.op s.cmd.arg) t.tablesValid t.rsp

/-- From every state in IDLE with the command word 0x1_00000000 offered and no reset at the edges it takes, after
ACCEPT, the latency and COMPLETE the response is (OK, 0, 0), tables_valid is 1 and both tables hold their contents.
The number of steps and the window without reset are the model's form of the open LAT_INIT (DESIGN CHOICE, log entry
2). (70_reset_and_hazards.md R213, 41_init.md R132, log entry 2) -/
def Obligations.InitTransactionMakesTablesValid : Prop :=
  ∀ s : State, s.phase = .idle → s.inputs.cmdValid = true → s.inputs.cmdOp = 0x1 → s.inputs.cmdArg = 0 →
    s.noResetFor (s.latencies.headD 0 + 2) →
    ∃ t, Sys2Proof.core.run (s.latencies.headD 0 + 2) s = .next t ∧ t.phase = .resp ∧ t.rsp = ⟨0, 0, 0⟩ ∧
      t.tablesValid = true ∧ TablesBuilt t.mem

/-- From every state, reachable or not, a step answers a next state: every error is a response, and the enumerator is
never called past its last combination. (60_exceptions.md R190, 41_init.md R124) -/
def Obligations.StepNeverStops : Prop :=
  ∀ s : State, ∃ t, step s = .next t

/-- State.reset meets the invariant: tables_valid is 0, nothing runs and no response is held. (10_state.md R31,
20_memory.md R53) -/
def Obligations.InvariantHoldsAtReset : Prop :=
  State.reset.Inv

/-- From every state of the invariant every step leads to one: whenever tables_valid = 1 SLT holds the codewords and EPL
for each syndrome a pattern of weight at most 3 with it; tables_valid is 0 while a legal INIT is BUSY; and in RESP
the response answers the accepted command as the code alone prescribes. (20_memory.md R53, 41_init.md R131,
60_exceptions.md R185, 42_codec.md R154) -/
def Obligations.StepKeepsTheInvariant : Prop :=
  ∀ s t : State, s.Inv → step s = .next t → t.Inv

/-- Two states that agree on all that is specified (they may differ in CMD in IDLE, RSP outside RESP, both tables while
tables_valid = 0, the sequencer and the free values) look alike to the host, and after a step they agree so again.
Reset leaves tables_valid = 0 and phase IDLE and gives such states from any two states with the same host;
State.reset, whose unspecified values are the model's zeros (log entry 1), agrees with every such state of a host
that has done nothing. The model's choices in it: one edge of reset is a whole reset (DESIGN CHOICE, log entry 17),
the host's side stays at a reset (DESIGN CHOICE, log entry 5), and the zeros of State.reset (DESIGN CHOICE, log
entry 1). (10_state.md R31, 70_reset_and_hazards.md R210, log entry 1, log entry 5, log entry 17) -/
def Obligations.UnspecifiedValuesNeverShow : Prop :=
  (∀ s t : State, s.inputs.rst = true → step s = .next t → t.tablesValid = false ∧ t.phase = .idle) ∧
  (∀ s t : State, s.SameSpecified t → s.observe = t.observe ∧
    ∀ s' t' : State, step s = .next s' → step t = .next t' → s'.SameSpecified t') ∧
  (∀ s t : State, s.pins = t.pins → s.delivered = t.delivered → s.latencies = t.latencies →
    s.resetPulse.SameSpecified t.resetPulse) ∧
  (∀ s : State, s.pins = [] → s.delivered = [] → s.latencies = [] → s.tablesValid = false → s.phase = .idle →
    s.SameSpecified State.reset)

/-- For every step: a reset asserted at that edge clears it (that one edge is a whole reset, the OPEN minimum width not
read, is the model's choice: DESIGN CHOICE, log entry 17); an ACCEPT of op 0x1 with arg 0 clears it; the COMPLETE of
a legal INIT sets it and answers OK; every other step leaves it as it was. It is 0 at reset; sts_tables_valid drives
it; and when it is 0 the four table commands with a legal argument respond UNINIT. (10_state.md R23, 10_state.md
R33, 70_reset_and_hazards.md R210, 41_init.md R131, 60_exceptions.md R181, log entry 17) -/
def Obligations.TablesValidChangesOnlyByInit : Prop :=
  State.reset.tablesValid = false ∧
  ∀ s t : State, step s = .next t →
    (s.inputs.rst = true → t.tablesValid = false) ∧
    (s.inputs.rst = false → s.accepts = true → s.inputs.command.isLegalInit = true → t.tablesValid = false) ∧
    (s.completesInit = true → t.tablesValid = true ∧ t.rsp = ⟨0, 0, 0⟩) ∧
    (s.inputs.rst = false → ¬(s.accepts = true ∧ s.inputs.command.isLegalInit = true) → s.completesInit = false →
      t.tablesValid = s.tablesValid) ∧
    s.outputs.stsTablesValid = s.tablesValid ∧
    (s.tablesValid = false → ∀ i : Instr, i.wellFormed = true →
      (i.opcode = 0x2 ∨ i.opcode = 0x3 ∨ i.opcode = 0x5 ∨ i.opcode = 0x6) →
      exec i s = .next (s.responded ⟨3, 0, 0⟩))

/-- At every step that is no reset and not within the BUSY of a legal INIT, every entry of SLT and of EPL reads as
before, and so does the sequencer state. While a legal INIT waits in BUSY they read as before too: that clause is
the model's choice, since R56 puts INIT's writes anywhere between its ACCEPT and its COMPLETE and the model makes
them all at COMPLETE (DEDUCED, log entry 7). What is said of the sequencer is the model's choice (log entry 8).
(20_memory.md R51, 20_memory.md R52, 20_memory.md R56, 20_memory.md R58, 43_table_read.md R171, log entry 7, log
entry 8) -/
def Obligations.TablesWrittenOnlyByInit : Prop :=
  ∀ s t : State, s.inputs.rst = false → step s = .next t →
    (¬(s.phase = .busy ∧ s.cmd.isLegalInit = true) →
      (∀ d, t.mem.readSlt d = s.mem.readSlt d) ∧ (∀ x, t.mem.readEpl x = s.mem.readEpl x) ∧ t.seq = s.seq) ∧
    (s.phase = .busy → s.cmd.isLegalInit = true → s.busyLeft ≠ 0 →
      (∀ d, t.mem.readSlt d = s.mem.readSlt d) ∧ (∀ x, t.mem.readEpl x = s.mem.readEpl x) ∧ t.seq = s.seq)

/-- For every argument up to 0x7FFFFF and every state, tables valid or not, SYNDROME completes with (OK, syndrome, 0)
and writes nothing but RSP and phase; above, with (INVALID_INPUT, 0, 0). The corner cases: below 0x800 it answers
the argument; 0xC75 and 0x7FFFFF give 0; 0x800 gives 0x475. (R102) -/
def Obligations.SyndromeResult : Prop :=
  ∀ (a : Arg) (s : State),
    (a.toNat ≤ 0x7FFFFF →
      exec (.syndrome a) s = .next (s.responded ⟨0, (syndrome (a.setWidth 23)).setWidth 32, 0⟩)) ∧
    (0x7FFFFF < a.toNat → exec (.syndrome a) s = .next (s.responded ⟨2, 0, 0⟩)) ∧
    (a.toNat < 0x800 → exec (.syndrome a) s = .next (s.responded ⟨0, a, 0⟩)) ∧
    exec (.syndrome 0x000C75) s = .next (s.responded ⟨0, 0, 0⟩) ∧
    exec (.syndrome 0x7FFFFF) s = .next (s.responded ⟨0, 0, 0⟩) ∧
    exec (.syndrome 0x000800) s = .next (s.responded ⟨0, 0x475, 0⟩)

/-- For every 23-bit p and 11-bit s: s is syndrome(p) exactly when p ^ s is the GF(2) product of G and some q of 12
bits. (R100) -/
def Obligations.SyndromeIsTheUniqueRemainder : Prop :=
  ∀ (p : Pattern) (x : Syndrome), x = syndrome p ↔ ∃ q : DataWord, p ^^^ x.setWidth 23 = timesG q

/-- For every 23-bit p the algorithm of R101, run on a 32-bit pattern with the sliding marker started at bit 22, ends
within 12 outer iterations with the remainder the commands use; below 2^11 it makes no iteration and returns p.
(R101) -/
def Obligations.DividerLoopComputesSyndrome : Prop :=
  ∀ p : Pattern,
    divideWithin 12 (p.setWidth 32) markerStart = some (syndrome p) ∧
    (p.toNat < 2 ^ 11 → divideWithin 0 (p.setWidth 32) markerStart = some (p.setWidth 11))

/-- For every 32-bit p of 2^23 or more and every number of iterations, the loop has not returned a remainder
(divideWithin answers none, which it also does when the marker leaves the word or stands below bit 11: DEDUCED, log
entry 10); and SYNDROME and DECODE with that argument answer INVALID_INPUT, whatever the state. (40_divider.md R106,
40_divider.md R102, 42_codec.md R152, log entry 10) -/
def Obligations.DividerLoopNeverEndsAbove23Bits : Prop :=
  ∀ p : Arg, 2 ^ 23 ≤ p.toNat →
    (∀ n, divideWithin n p markerStart = none) ∧
    ∀ s : State, exec (.syndrome p) s = .next (s.responded ⟨2, 0, 0⟩) ∧
      exec (.decode p) s = .next (s.responded ⟨2, 0, 0⟩)

/-- The four properties of R104 over all 23-bit patterns. (R104) -/
def Obligations.SyndromeIsLinear : Prop :=
  (∀ a b : Pattern, syndrome (a ^^^ b) = syndrome a ^^^ syndrome b) ∧
  (∀ p : Pattern, p.toNat < 2 ^ 11 → syndrome p = p.setWidth 11) ∧
  (∀ p : Pattern, syndrome p = (List.range 23).foldl
    (fun v k => if p.getLsbD k then v ^^^ syndrome (1#23 <<< k) else v) 0) ∧
  (∀ p : Pattern, syndrome p = 0 ↔ ∃ q : DataWord, p = timesG q)

/-- For every combination of r positions out of 1..23, bit i of to_bitvector is set exactly when i + 1 is in it, and its
weight is r. (R121) -/
def Obligations.BitvectorSetsExactlyThePositions : Prop :=
  ∀ (r : Nat) (a : List Nat), IsCombination 23 r a →
    (∀ i, (toBitvector a).getLsbD i = true ↔ i + 1 ∈ a) ∧ popcount (toBitvector a) = r

/-- For all n and r at least 1 and every combination: if it is not the last one, next_combination answers a combination
that is later and not later than any other later one; on (n-r+1, ..., n) it answers none, the model's fault for
R124. (41_init.md R122, 41_init.md R124) -/
def Obligations.NextCombinationIsTheSuccessor : Prop :=
  ∀ (n r : Nat) (a : List Nat), 1 ≤ r → IsCombination n r a →
    (a ≠ lastCombination n r →
      ∃ b, nextCombination n r a = some b ∧ IsCombination n r b ∧ a < b ∧
        ∀ c, IsCombination n r c → a < c → b = c ∨ b < c) ∧
    (a = lastCombination n r → nextCombination n r a = none)

/-- For all 1 <= r <= n: after k calls, k < C(n, r), the enumerator holds a combination; every combination is held after
exactly one such k; the order is lexicographic; after C(n, r) - 1 calls it is (n-r+1, ..., n). C(23, 2) is 253 and
C(23, 3) is 1771. (R123) -/
def Obligations.EnumerationReachesEveryCombinationOnce : Prop :=
  (∀ n r : Nat, 1 ≤ r → r ≤ n →
    (∀ k, k < Nat.choose n r → ∃ a, combinationAfter n r k = some a ∧ IsCombination n r a) ∧
    (∀ a, IsCombination n r a → ∃ k, k < Nat.choose n r ∧ combinationAfter n r k = some a) ∧
    (∀ j k a b, j < k → combinationAfter n r j = some a → combinationAfter n r k = some b → a < b) ∧
    combinationAfter n r (Nat.choose n r - 1) = some (lastCombination n r)) ∧
  Nat.choose 23 2 = 253 ∧ Nat.choose 23 3 = 1771

/-- From every state INIT completes with (OK, 0, 0) and tables_valid = 1: SLT[d] is d << 11 with its syndrome in the low
bits and EPL[x] is a pattern of weight at most 3 with syndrome x; CMD, the latency fields and the host's side are
unchanged and the sequencer takes the model's free values again (DESIGN CHOICE, log entry 8); SLT[1] is 0x000C75 and
EPL[0x475] is 0x000800. With arg not 0 it writes RSP and phase only. (41_init.md R133, 41_init.md R125, 41_init.md
R128, log entry 8) -/
def Obligations.InitBuildsBothTables : Prop :=
  ∀ (a : Arg) (s : State),
    (a = 0 → ∃ m : Memory, exec (.init a) s = .next
        { s with mem := m, seq := InitSeq.unspecified s.edge, tablesValid := true, rsp := ⟨0, 0, 0⟩, phase := .resp } ∧
      (∀ d : DataWord, m.readSlt d =
        (d.setWidth 23 <<< 11) ^^^ (syndrome (d.setWidth 23 <<< 11)).setWidth 23) ∧
      (∀ x : Syndrome, syndrome (m.readEpl x) = x ∧ popcount (m.readEpl x) ≤ 3) ∧
      m.readSlt 1 = 0x000C75 ∧ m.readEpl 0x475 = 0x000800) ∧
    (a ≠ 0 → exec (.init a) s = .next (s.responded ⟨2, 0, 0⟩))

/-- From every state, after INIT the slot of every pattern of weight at most 3 holds that pattern, so no two share a
slot and EPL[s] is the unique one; in particular EPL[0] = 0 and EPL[1 << k] = 1 << k for k up to 10. (41_init.md
R128, 41_init.md R129, 20_memory.md R52) -/
def Obligations.EplHoldsEveryPatternOfWeightAtMostThree : Prop :=
  ∀ s t : State, exec (.init 0) s = .next t →
    (∀ e : Pattern, popcount e ≤ 3 → t.mem.readEpl (syndrome e) = e) ∧
    t.mem.readEpl 0 = 0 ∧
    (∀ k, k ≤ 10 → t.mem.readEpl (1#11 <<< k) = 1#23 <<< k)

/-- For INIT run with any divider: if its fill steps give the build b, then with every slot written the answer is (OK,
0, 0) with tables_valid = 1, and else (INIT_FAIL, 0, 0) with tables_valid as ACCEPT left it; either way the tables
are b's. The divider as a parameter (DEDUCED, log entry 12), the free sequencer (DESIGN CHOICE, log entry 8) and the
tables after INIT_FAIL, where R132 and U3 differ (DESIGN CHOICE, log entry 19), are the model's choices. (41_init.md
R132, log entry 8, log entry 12, log entry 19) -/
def Obligations.CoverageDecidesTheInitStatus : Prop :=
  ∀ (div : Pattern → Syndrome) (s : State) (b : Build), buildTables div s.mem s.seq = some b →
    ((∀ i, i < 2048 → b.seq.written.getLsbD i = true) → runInit div s = .next
      { s with mem := b.mem, seq := InitSeq.unspecified s.edge, tablesValid := true, rsp := ⟨0, 0, 0⟩, phase := .resp }) ∧
    ((∃ i, i < 2048 ∧ b.seq.written.getLsbD i = false) → runInit div s = .next
      { s with mem := b.mem, seq := InitSeq.unspecified s.edge, rsp := ⟨4, 0, 0⟩, phase := .resp })

/-- For any divider, whatever the tables and the sequencer held: the fill steps end, and every slot is written exactly
when step 2 sends no two patterns of weight at most 3 into one slot. With the block's divider every slot is written.
The divider as a parameter is the model's choice (DEDUCED, log entry 12). (41_init.md R130, log entry 12) -/
def Obligations.CoverageHoldsExactlyWithoutCollision : Prop :=
  (∀ (div : Pattern → Syndrome) (m : Memory) (q : InitSeq), ∃ b, buildTables div m q = some b ∧
    (covered b.seq.written = true ↔
      ∀ e f : Pattern, popcount e ≤ 3 → popcount f ≤ 3 → slotOf div e = slotOf div f → e = f)) ∧
  (∀ (m : Memory) (q : InitSeq) (b : Build), buildTables syndrome m q = some b → covered b.seq.written = true)

/-- A divider injected into the model that answers 0 for every pattern leaves slots unwritten: from every state INIT
then responds (INIT_FAIL, 0, 0) and leaves tables_valid as it was. The divider as a parameter is the model's choice
(DEDUCED, log entry 12). (60_exceptions.md R186, 41_init.md R130, 95_test_vectors.md section 3.5, log entry 12) -/
def Obligations.FaultyDividerGivesInitFail : Prop :=
  ∀ s : State, ∃ t, runInit (fun _ => 0) s = .next t ∧ t.rsp = ⟨4, 0, 0⟩ ∧ t.phase = .resp ∧
    t.tablesValid = s.tablesValid

/-- From any two states, INIT leaves the same memory, whatever the tables and the sequencer held before. (R134) -/
def Obligations.ReinitialisationRebuildsTheSameTables : Prop :=
  ∀ s s' t t' : State, exec (.init 0) s = .next t → exec (.init 0) s' = .next t' → t.mem = t'.mem

/-- In every state of the invariant with tables_valid = 1, items (a) to (f) of R53 hold of the entries read. (R53) -/
def Obligations.ValidTablesMeetTheInvariants : Prop :=
  ∀ s : State, s.Inv → s.tablesValid = true →
    (∀ d, (s.mem.readSlt d).extractLsb' 11 12 = d) ∧
    (∀ d, syndrome (s.mem.readSlt d) = 0) ∧
    (∀ d d', s.mem.readSlt d = s.mem.readSlt d' → d = d') ∧
    s.mem.readEpl 0 = 0 ∧
    (∀ x, popcount (s.mem.readEpl x) ≤ 3) ∧
    (∀ x, syndrome (s.mem.readEpl x) = x)

/-- Reading the entry written gives the value written; every other entry of that table and all of the other table read
as before; two memories with the same entries are the same data, so the model's form of the tables, a tree, is
canonical (DESIGN CHOICE, log entry 9). (20_memory.md R56, 20_memory.md R50, 00_scope.md R12, log entry 9) -/
def Obligations.TableWritesAreOneWholeEntry : Prop :=
  (∀ (m : Memory) (i j : DataWord) (x : Syndrome) (v : Pattern),
    (m.writeSlt i v).readSlt i = v ∧ (j ≠ i → (m.writeSlt i v).readSlt j = m.readSlt j) ∧
    (m.writeSlt i v).readEpl x = m.readEpl x) ∧
  (∀ (m : Memory) (i j : Syndrome) (d : DataWord) (v : Pattern),
    (m.writeEpl i v).readEpl i = v ∧ (j ≠ i → (m.writeEpl i v).readEpl j = m.readEpl j) ∧
    (m.writeEpl i v).readSlt d = m.readSlt d) ∧
  (∀ m m' : Memory, (∀ d, m.readSlt d = m'.readSlt d) → (∀ x, m.readEpl x = m'.readEpl x) → m = m')

/-- In every state of the invariant with tables_valid = 1, each entry of SLT is the sum of the twelve row entries its
index selects, and those rows are the ones listed in 95_test_vectors.md 2.3. (R126) -/
def Obligations.SltIsTheSumOfItsRows : Prop :=
  ∀ s : State, s.Inv → s.tablesValid = true → (∀ d : DataWord,
    s.mem.readSlt d = (List.range 12).foldl
      (fun v i => if d.getLsbD i then v ^^^ s.mem.readSlt (1#12 <<< i) else v) 0) ∧
    (s.mem.readSlt 0x001 = 0x000C75 ∧ s.mem.readSlt 0x002 = 0x00149F ∧ s.mem.readSlt 0x004 = 0x00254B ∧
      s.mem.readSlt 0x008 = 0x0046E3 ∧ s.mem.readSlt 0x010 = 0x0081B3 ∧ s.mem.readSlt 0x020 = 0x010366 ∧
      s.mem.readSlt 0x040 = 0x0206CC ∧ s.mem.readSlt 0x080 = 0x0401ED ∧ s.mem.readSlt 0x100 = 0x0803DA ∧
      s.mem.readSlt 0x200 = 0x1007B4 ∧ s.mem.readSlt 0x400 = 0x20031D ∧ s.mem.readSlt 0x800 = 0x40063A)

/-- For every state and argument: above 0xFFF INVALID_INPUT; else UNINIT while tables_valid = 0; else (OK, SLT[arg], 0).
Nothing but RSP and phase is written. In a state of the invariant with valid tables, data 0, 1 and 0xFFF give 0,
0x000C75 and 0x7FFFFF. (R150) -/
def Obligations.EncodeResult : Prop :=
  ∀ (a : Arg) (s : State),
    (0xFFF < a.toNat → exec (.encode a) s = .next (s.responded ⟨2, 0, 0⟩)) ∧
    (a.toNat ≤ 0xFFF → s.tablesValid = false → exec (.encode a) s = .next (s.responded ⟨3, 0, 0⟩)) ∧
    (a.toNat ≤ 0xFFF → s.tablesValid = true →
      exec (.encode a) s = .next (s.responded ⟨0, (s.mem.readSlt (a.setWidth 12)).setWidth 32, 0⟩)) ∧
    (s.Inv → s.tablesValid = true →
      exec (.encode 0) s = .next (s.responded ⟨0, 0x000000, 0⟩) ∧
      exec (.encode 1) s = .next (s.responded ⟨0, 0x000C75, 0⟩) ∧
      exec (.encode 0xFFF) s = .next (s.responded ⟨0, 0x7FFFFF, 0⟩))

/-- In every state of the invariant with tables_valid = 1, ENCODE of data d answers OK with a codeword c(d) such that
c(d)[22:11] = d, syndrome(c(d)) = 0, c is injective and linear, and two distinct codewords differ in at least 7
bits. (R151) -/
def Obligations.EncodeGivesTheLinearCode : Prop :=
  ∀ s : State, s.Inv → s.tablesValid = true → ∃ c : DataWord → Pattern,
    (∀ d, exec (.encode (d.setWidth 32)) s = .next (s.responded ⟨0, (c d).setWidth 32, 0⟩)) ∧
    (∀ d, (c d).extractLsb' 11 12 = d) ∧
    (∀ d, syndrome (c d) = 0) ∧
    (∀ d d', c d = c d' → d = d') ∧
    (∀ d d', c (d ^^^ d') = c d ^^^ c d') ∧
    (∀ d d', d ≠ d' → 7 ≤ popcount (c d ^^^ c d'))

/-- For every state and argument: above 0x7FFFFF INVALID_INPUT; else UNINIT while tables_valid = 0; else, with e =
EPL[syndrome(arg)], (OK, (arg ^ e) >> 11, popcount(e)). Nothing but RSP and phase is written. In a state of the
invariant with valid tables the corner cases hold: 0x7FFFFF gives (0xFFF, 0), 0xF gives (0x048, 3), 0xC74 gives (1,
1), and a word below 0x800 of weight at most 3 gives (0, its weight). (R152) -/
def Obligations.DecodeResult : Prop :=
  ∀ (a : Arg) (s : State),
    (0x7FFFFF < a.toNat → exec (.decode a) s = .next (s.responded ⟨2, 0, 0⟩)) ∧
    (a.toNat ≤ 0x7FFFFF → s.tablesValid = false → exec (.decode a) s = .next (s.responded ⟨3, 0, 0⟩)) ∧
    (a.toNat ≤ 0x7FFFFF → s.tablesValid = true → ∀ e, e = s.mem.readEpl (syndrome (a.setWidth 23)) →
      exec (.decode a) s = .next (s.responded
        ⟨0, ((a.setWidth 23 ^^^ e) >>> 11).setWidth 32, BitVec.ofNat 2 (popcount e)⟩)) ∧
    (s.Inv → s.tablesValid = true →
      exec (.decode 0x7FFFFF) s = .next (s.responded ⟨0, 0xFFF, 0⟩) ∧
      exec (.decode 0x00000F) s = .next (s.responded ⟨0, 0x048, 3⟩) ∧
      exec (.decode 0x000C74) s = .next (s.responded ⟨0, 0x001, 1⟩) ∧
      (a.toNat < 0x800 → popcount a ≤ 3 →
        exec (.decode a) s = .next (s.responded ⟨0, 0, BitVec.ofNat 2 (popcount a)⟩)))

/-- In every state of the invariant with tables_valid = 1, for every data word d and every pattern f of weight at most
3, DECODE of encode(d) ^ f responds (OK, d, popcount(f)). (R153) -/
def Obligations.DecodeCorrectsUpToThreeErrors : Prop :=
  ∀ s : State, s.Inv → s.tablesValid = true → ∀ (d : DataWord) (f : Pattern), popcount f ≤ 3 →
    exec (.decode ((codeword d ^^^ f).setWidth 32)) s =
      .next (s.responded ⟨0, d.setWidth 32, BitVec.ofNat 2 (popcount f)⟩)

/-- In every state of the invariant with tables_valid = 1 and for every 23-bit word rx, DECODE responds OK with data d
and count n where n <= 3 is the distance from rx to the codeword of d and no codeword is nearer. (R154) -/
def Obligations.DecodeFindsTheNearestCodeword : Prop :=
  ∀ s : State, s.Inv → s.tablesValid = true → ∀ rx : Pattern, ∃ (d : DataWord) (n : Nat),
    exec (.decode (rx.setWidth 32)) s = .next (s.responded ⟨0, d.setWidth 32, BitVec.ofNat 2 n⟩) ∧
    n ≤ 3 ∧ n = popcount (rx ^^^ codeword d) ∧
    ∀ d' : DataWord, n ≤ popcount (rx ^^^ codeword d')

/-- In every state of the invariant with tables_valid = 1: when DECODE rx responds with data d and count n, d is below
2^12 and ENCODE d responds OK with the corrected codeword c, where c ^ rx is EPL[syndrome(rx)] and has weight n, at
most 3; that pattern is also what RD_EPL of the answer of SYNDROME rx responds. (R155) -/
def Obligations.ReencodeGivesBackThePattern : Prop :=
  ∀ s t : State, s.Inv → s.tablesValid = true → ∀ rx : Pattern, exec (.decode (rx.setWidth 32)) s = .next t →
    t.rsp.data.toNat < 2 ^ 12 ∧
    ∃ c : Pattern, exec (.encode t.rsp.data) s = .next (s.responded ⟨0, c.setWidth 32, 0⟩) ∧
      c ^^^ rx = s.mem.readEpl (syndrome rx) ∧ popcount (c ^^^ rx) ≤ 3 ∧
      t.rsp.count = BitVec.ofNat 2 (popcount (c ^^^ rx)) ∧
      ∃ u, exec (.syndrome (rx.setWidth 32)) s = .next u ∧
        exec (.rdEpl u.rsp.data) s = .next (s.responded ⟨0, (c ^^^ rx).setWidth 32, 0⟩)

/-- For every state and argument: above 0xFFF INVALID_INPUT; else UNINIT while tables_valid = 0; else (OK, SLT[arg], 0);
nothing but RSP and phase is written, and with tables_valid = 1 RD_SLT d and ENCODE d respond identically. In a
state of the invariant entries 0, 0x800 and 0xFFF are 0, 0x40063A and 0x7FFFFF. (R170) -/
def Obligations.RdSltResult : Prop :=
  ∀ (a : Arg) (s : State),
    (0xFFF < a.toNat → exec (.rdSlt a) s = .next (s.responded ⟨2, 0, 0⟩)) ∧
    (a.toNat ≤ 0xFFF → s.tablesValid = false → exec (.rdSlt a) s = .next (s.responded ⟨3, 0, 0⟩)) ∧
    (a.toNat ≤ 0xFFF → s.tablesValid = true →
      exec (.rdSlt a) s = .next (s.responded ⟨0, (s.mem.readSlt (a.setWidth 12)).setWidth 32, 0⟩)) ∧
    (s.tablesValid = true → exec (.rdSlt a) s = exec (.encode a) s) ∧
    (s.Inv → s.tablesValid = true →
      exec (.rdSlt 0) s = .next (s.responded ⟨0, 0x000000, 0⟩) ∧
      exec (.rdSlt 0x800) s = .next (s.responded ⟨0, 0x40063A, 0⟩) ∧
      exec (.rdSlt 0xFFF) s = .next (s.responded ⟨0, 0x7FFFFF, 0⟩))

/-- For every state and argument: above 0x7FF INVALID_INPUT; else UNINIT while tables_valid = 0; else (OK, EPL[arg], 0).
Nothing but RSP and phase is written. In a state of the invariant entries 0, 0x475 and 0x7FF are 0, 0x000800 and
0x028080. (R172) -/
def Obligations.RdEplResult : Prop :=
  ∀ (a : Arg) (s : State),
    (0x7FF < a.toNat → exec (.rdEpl a) s = .next (s.responded ⟨2, 0, 0⟩)) ∧
    (a.toNat ≤ 0x7FF → s.tablesValid = false → exec (.rdEpl a) s = .next (s.responded ⟨3, 0, 0⟩)) ∧
    (a.toNat ≤ 0x7FF → s.tablesValid = true →
      exec (.rdEpl a) s = .next (s.responded ⟨0, (s.mem.readEpl (a.setWidth 11)).setWidth 32, 0⟩)) ∧
    (s.Inv → s.tablesValid = true →
      exec (.rdEpl 0) s = .next (s.responded ⟨0, 0x000000, 0⟩) ∧
      exec (.rdEpl 0x475) s = .next (s.responded ⟨0, 0x000800, 0⟩) ∧
      exec (.rdEpl 0x7FF) s = .next (s.responded ⟨0, 0x028080, 0⟩))

/-- RD_EPL with any argument in any state writes nothing but RSP and phase, and no command other than INIT with arg 0
changes an entry of EPL. In every state of the invariant with tables_valid = 1 and for every s of 11 bits, RD_EPL s
answers a state u with status OK, and SYNDROME of its data answers (OK, s, 0) there. (R173) -/
def Obligations.EplTotalityAsTheHostChecksIt : Prop :=
  (∀ (a : Arg) (s : State), ∃ r, exec (.rdEpl a) s = .next (s.responded r)) ∧
  (∀ (i : Instr) (s t : State), i ≠ .init 0 → exec i s = .next t → ∀ x, t.mem.readEpl x = s.mem.readEpl x) ∧
  ∀ s : State, s.Inv → s.tablesValid = true → ∀ x : Syndrome, ∃ u, exec (.rdEpl (x.setWidth 32)) s = .next u ∧
    u.rsp.status = 0 ∧ u.mem = s.mem ∧ exec (.syndrome u.rsp.data) u = .next (u.responded ⟨0, x.setWidth 32, 0⟩)

/-- The ten reserved opcodes complete with (ILLEGAL_OP, 0, 0) and change no state except RSP and phase. (R184) -/
def Obligations.ReservedOpcodesAreIllegal : Prop :=
  ∀ (a : Arg) (s : State),
    exec (.reserved0 a) s = .next (s.responded ⟨1, 0, 0⟩) ∧ exec (.reserved7 a) s = .next (s.responded ⟨1, 0, 0⟩) ∧
    exec (.reserved8 a) s = .next (s.responded ⟨1, 0, 0⟩) ∧ exec (.reserved9 a) s = .next (s.responded ⟨1, 0, 0⟩) ∧
    exec (.reservedA a) s = .next (s.responded ⟨1, 0, 0⟩) ∧ exec (.reservedB a) s = .next (s.responded ⟨1, 0, 0⟩) ∧
    exec (.reservedC a) s = .next (s.responded ⟨1, 0, 0⟩) ∧ exec (.reservedD a) s = .next (s.responded ⟨1, 0, 0⟩) ∧
    exec (.reservedE a) s = .next (s.responded ⟨1, 0, 0⟩) ∧ exec (.reservedF a) s = .next (s.responded ⟨1, 0, 0⟩) ∧
    ∀ op : Op, op = 0x0 ∨ 7 ≤ op.toNat → exec (decodeCommand op a) s = .next (s.responded ⟨1, 0, 0⟩)

/-- For each of the six commands and every state: the response has status INVALID_INPUT exactly when arg & ~LEGAL_MASK
is not 0, and that holds exactly when arg is above the command's range. (R182) -/
def Obligations.ArgumentRangesAreTheLegalMasks : Prop :=
  ∀ (a : Arg) (s t : State),
    (exec (.init a) s = .next t → (t.rsp.status = 2 ↔ a &&& ~~~(0x0#32) ≠ 0) ∧ (t.rsp.status = 2 ↔ a ≠ 0)) ∧
    (exec (.encode a) s = .next t → (t.rsp.status = 2 ↔ a &&& ~~~(0xFFF#32) ≠ 0) ∧ (t.rsp.status = 2 ↔ 0xFFF < a.toNat)) ∧
    (exec (.decode a) s = .next t → (t.rsp.status = 2 ↔ a &&& ~~~(0x7FFFFF#32) ≠ 0) ∧ (t.rsp.status = 2 ↔ 0x7FFFFF < a.toNat)) ∧
    (exec (.syndrome a) s = .next t → (t.rsp.status = 2 ↔ a &&& ~~~(0x7FFFFF#32) ≠ 0) ∧ (t.rsp.status = 2 ↔ 0x7FFFFF < a.toNat)) ∧
    (exec (.rdSlt a) s = .next t → (t.rsp.status = 2 ↔ a &&& ~~~(0xFFF#32) ≠ 0) ∧ (t.rsp.status = 2 ↔ 0xFFF < a.toNat)) ∧
    (exec (.rdEpl a) s = .next t → (t.rsp.status = 2 ↔ a &&& ~~~(0x7FF#32) ≠ 0) ∧ (t.rsp.status = 2 ↔ 0x7FF < a.toNat))

/-- With tables_valid = 0 a table command with a legal argument completes with (UNINIT, 0, 0), whatever the tables hold;
INIT and SYNDROME never respond UNINIT, in any state. (R181) -/
def Obligations.UninitGuardsTheTableCommands : Prop :=
  (∀ (a : Arg) (s : State), s.tablesValid = false →
    (a.toNat ≤ 0xFFF → exec (.encode a) s = .next (s.responded ⟨3, 0, 0⟩)) ∧
    (a.toNat ≤ 0x7FFFFF → exec (.decode a) s = .next (s.responded ⟨3, 0, 0⟩)) ∧
    (a.toNat ≤ 0xFFF → exec (.rdSlt a) s = .next (s.responded ⟨3, 0, 0⟩)) ∧
    (a.toNat ≤ 0x7FF → exec (.rdEpl a) s = .next (s.responded ⟨3, 0, 0⟩))) ∧
  (∀ (a : Arg) (s t : State), exec (.init a) s = .next t ∨ exec (.syndrome a) s = .next t → t.rsp.status ≠ 3)

/-- For every command and state that answers next: a reserved opcode gives ILLEGAL_OP; else a bad argument gives
INVALID_INPUT; else a table command with tables_valid = 0 gives UNINIT; else the status is OK. For INIT with any
divider, after a good argument it is OK or, by the coverage check alone, INIT_FAIL; the divider as a parameter is
the model's choice (DEDUCED, log entry 12). (60_exceptions.md R185, log entry 12) -/
def Obligations.StatusPriority : Prop :=
  (∀ (i : Instr) (s t : State), exec i s = .next t →
    (i.isReserved = true → t.rsp.status = 1) ∧
    (i.isReserved = false → i.wellFormed = false → t.rsp.status = 2) ∧
    (i.wellFormed = true → s.tablesValid = false →
      (i.opcode = 0x2 ∨ i.opcode = 0x3 ∨ i.opcode = 0x5 ∨ i.opcode = 0x6) → t.rsp.status = 3) ∧
    (i.wellFormed = true → (s.tablesValid = true ∨ i.opcode = 0x1 ∨ i.opcode = 0x4) → t.rsp.status = 0)) ∧
  (∀ (div : Pattern → Syndrome) (s : State) (b : Build), buildTables div s.mem s.seq = some b →
    ∃ t, runInit div s = .next t ∧ t.rsp.status = if covered b.seq.written then 0 else 4)

/-- For every command and state: if the response has a status other than OK, the next state is the state before with RSP
= (status, 0, 0) and phase = RESP; tables_valid and every table entry are unchanged. INIT_FAIL, which is no raise
and which only a faulty divider gives, leaves the tables as written (the divider as a parameter is DEDUCED, log
entry 12; the tables after INIT_FAIL, where R132 and U3 differ, a DESIGN CHOICE, log entry 19); and ACCEPT of an
INIT with a nonzero arg leaves tables_valid alone. (60_exceptions.md R183, 10_state.md R33, log entry 12, log entry
19) -/
def Obligations.ErrorsWriteOnlyTheResponse : Prop :=
  (∀ (i : Instr) (s t : State), exec i s = .next t → t.rsp.status ≠ 0 →
    t = s.responded ⟨t.rsp.status, 0, 0⟩ ∧ t.tablesValid = s.tablesValid ∧
    (∀ d, t.mem.readSlt d = s.mem.readSlt d) ∧ (∀ x, t.mem.readEpl x = s.mem.readEpl x)) ∧
  (∀ (div : Pattern → Syndrome) (s : State) (b : Build), buildTables div s.mem s.seq = some b →
    covered b.seq.written = false → ∃ t, runInit div s = .next t ∧ t.rsp = ⟨4, 0, 0⟩ ∧ t.mem = b.mem) ∧
  (∀ s t : State, s.accepts = true → s.inputs.cmdOp = 0x1 → s.inputs.cmdArg ≠ 0 → step s = .next t →
    t.tablesValid = s.tablesValid)

/-- For every command and state that answers next: the status is 0 to 3 (4 only from a faulty build); with OK, bits
31:23 of the data are 0; the count is 0 for every command but DECODE; the codes of the five statuses are 0 to 4.
(60_exceptions.md R180, 20_memory.md R54, 10_state.md R26) -/
def Obligations.StatusCodesOfTheBlock : Prop :=
  (∀ (i : Instr) (s t : State), exec i s = .next t →
    t.rsp.status.toNat ≤ 3 ∧ t.rsp.data.toNat < 2 ^ 23 ∧ (i.opcode ≠ 0x3 → t.rsp.count = 0)) ∧
  (∀ (st : Status), st.code.toNat ≤ 4 ∧ Status.ofCode st.code = some st) ∧
  (∀ c : BitVec 3, 5 ≤ c.toNat ↔ Status.ofCode c = none)

/-- For every command, state and earlier response r: with RSP replaced by r, the command answers the very same next
state, since COMPLETE overwrites RSP. (R188) -/
def Obligations.ErrorsAreNotSticky : Prop :=
  ∀ (i : Instr) (s t : State) (r : Response), exec i s = .next t → exec i { s with rsp := r } = .next t

/-- When exec of a command other than INIT with arg 0 answers next: tables_valid, CMD, the sequencer, the host's inputs
and record, the latency fields and the edge count are unchanged, every entry of SLT and EPL reads as before, and
phase is RESP. That the sequencer, which R29 leaves unspecified between commands, is unchanged is the model's choice
(DESIGN CHOICE, log entry 8). (42_codec.md R150, 42_codec.md R152, 40_divider.md R102, 43_table_read.md R171,
43_table_read.md R173, 10_state.md R27, 10_state.md R29, log entry 8) -/
def Obligations.CommandsOtherThanInitWriteOnlyTheResponse : Prop :=
  ∀ (i : Instr) (s t : State), i ≠ .init 0 → exec i s = .next t →
    t.tablesValid = s.tablesValid ∧ t.cmd = s.cmd ∧ t.seq = s.seq ∧ t.pins = s.pins ∧ t.delivered = s.delivered ∧
    t.latencies = s.latencies ∧ t.busyLeft = s.busyLeft ∧ t.edge = s.edge ∧ t.phase = .resp ∧
    (∀ d, t.mem.readSlt d = s.mem.readSlt d) ∧ (∀ x, t.mem.readEpl x = s.mem.readEpl x)

/-- When exec of INIT answers next, CMD, the host's inputs and record, the latency fields and the edge count are
unchanged; each entry of the tables that differs holds what the fill steps store for it: the codeword of its index,
or a pattern of weight at most 3 whose syndrome is its index. (41_init.md R133) -/
def Obligations.InitFrame : Prop :=
  ∀ (a : Arg) (s t : State), exec (.init a) s = .next t →
    t.cmd = s.cmd ∧ t.pins = s.pins ∧ t.delivered = s.delivered ∧ t.latencies = s.latencies ∧
    t.busyLeft = s.busyLeft ∧ t.edge = s.edge ∧ t.phase = .resp ∧
    (∀ d, t.mem.readSlt d = s.mem.readSlt d ∨ t.mem.readSlt d = codeword d) ∧
    (∀ x, t.mem.readEpl x = s.mem.readEpl x ∨
      (syndrome (t.mem.readEpl x) = x ∧ popcount (t.mem.readEpl x) ≤ 3))

/-- For every numeral, decimal digits or 0x and hexadecimal digits, of value n (IsLiteral says what the digits denote,
by place value): each mnemonic but INIT followed by it assembles to that command with argument n if n is below 2^32,
and is refused as too wide otherwise; followed by any other word it is refused as no literal. INIT alone assembles
to INIT with arg 0. The mnemonics are those of R78 (operandMnemonics). That one space separates the words and that
hexadecimal digits may be capital or small are the model's choices (DESIGN CHOICE, log entry 13). (30_encoding.md
R78, log entry 13) -/
def Obligations.AssembledOperandIsUnchanged : Prop :=
  (∀ (w : List Char) (n : Nat), IsLiteral w n →
    ∀ p ∈ operandMnemonics,
    (n < 2 ^ 32 → assembleLine (p.1 ++ ' ' :: w) = .ok (p.2 (BitVec.ofNat 32 n))) ∧
    (2 ^ 32 ≤ n → assembleLine (p.1 ++ ' ' :: w) = .error .literalTooWide)) ∧
  (∀ w : List Char, IsWord w → (∀ n, ¬IsLiteral w n) →
    ∀ p ∈ operandMnemonics,
    assembleLine (p.1 ++ ' ' :: w) = .error .badLiteral) ∧
  assembleLine ['I', 'N', 'I', 'T'] = .ok (.init 0)

/-- For every hexadecimal digit of value op and eight hexadecimal digits of value arg, '.word 0x<op>_<arg>' assembles to
the command that op selects with that argument, the reserved opcodes among them; that the spelling is taken for
every opcode is the model's choice (DEDUCED, log entry 13). Two slashes and any text after a line without a slash
leave what the line assembles to, or how it is refused, as it was. (30_encoding.md R78, 30_encoding.md R70,
30_encoding.md R73, log entry 13) -/
def Obligations.AssembledWordFormAndComment : Prop :=
  (∀ (o : Char) (cs : List Char) (op a : Nat), IsNumeral 16 [o] op → IsNumeral 16 cs a → cs.length = 8 →
    assembleLine (['.', 'w', 'o', 'r', 'd', ' ', '0', 'x'] ++ o :: '_' :: cs) =
      .ok (decodeCommand (BitVec.ofNat 4 op) (BitVec.ofNat 32 a))) ∧
  (∀ line text : List Char, '/' ∉ line → assembleLine (line ++ '/' :: '/' :: text) = assembleLine line)

/-- INIT with an operand is refused: R78 says that INIT takes none, program P2 of 95_test_vectors.md writes INIT 0x1,
and the model follows R78 (DEDUCED, log entry 13). Each other mnemonic is refused without an operand and with two; a
line that begins with any other word is refused, except for the spelling .word, and so is a line of nothing but
spaces and tabs, the empty line among them. The names of the refusals, and that spaces and tabs separate words, are
the model's choices (DESIGN CHOICE, log entry 13). (30_encoding.md R78, 95_test_vectors.md program P2, log entry 13) -/
def Obligations.AssemblerRefusesOtherLines : Prop :=
  (∀ w v : List Char, IsWord w → IsWord v →
    assembleLine (['I', 'N', 'I', 'T'] ++ ' ' :: w) = .error .extraOperand ∧
    (∀ p ∈ operandMnemonics,
      assembleLine p.1 = .error .missingOperand ∧
      assembleLine (p.1 ++ ' ' :: w ++ ' ' :: v) = .error .extraOperand) ∧
    (v ∉ [['I', 'N', 'I', 'T'], ['E', 'N', 'C', 'O', 'D', 'E'], ['D', 'E', 'C', 'O', 'D', 'E'],
        ['S', 'Y', 'N', 'D', 'R', 'O', 'M', 'E'], ['R', 'D', '_', 'S', 'L', 'T'],
        ['R', 'D', '_', 'E', 'P', 'L'], ['.', 'w', 'o', 'r', 'd']] →
      assembleLine v = .error .unknownMnemonic ∧ ∀ rest, assembleLine (v ++ ' ' :: rest) = .error .unknownMnemonic)) ∧
  ∀ line : List Char, (∀ c ∈ line, c = ' ' ∨ c = '\t') → assembleLine line = .error .noMnemonic
end

