-- ==== Sys2Proof/Laws/Assembler.lean ====
section
/-! SUPPORT. The text syntax: how a line falls into words, and that the model reads exactly the literals of
spec/30_encoding.md R78 (`IsLiteral`). -/

namespace Sys2Proof.Machine

/-! Comments. -/

theorem stripComment_cons {c : Char} (h : c ≠ '/') (cs : List Char) : stripComment (c :: cs) = c :: stripComment cs := by
  rw [stripComment]
  rintro cs rfl
  exact absurd rfl h

theorem stripComment_append {l : List Char} (h : '/' ∉ l) (cs : List Char) :
    stripComment (l ++ cs) = l ++ stripComment cs := by
  induction l with
  | nil => rfl
  | cons c l ih =>
    rw [List.mem_cons, not_or] at h
    rw [List.cons_append, stripComment_cons (Ne.symm h.1), ih h.2, List.cons_append]

theorem stripComment_of_no_slash {l : List Char} (h : '/' ∉ l) : stripComment l = l := by
  simpa [stripComment] using stripComment_append h []

theorem stripComment_comment {l : List Char} (h : '/' ∉ l) (text : List Char) :
    stripComment (l ++ '/' :: '/' :: text) = l := by
  simpa [stripComment] using stripComment_append h ('/' :: '/' :: text)

/-! Words. -/

theorem lineWords_space (cs : List Char) : lineWords (' ' :: cs) = lineWords cs := by
  conv_lhs => unfold lineWords
  simp

theorem lineWords_char_space {c : Char} (hc : c ≠ ' ' ∧ c ≠ '\t') (cs : List Char) :
    lineWords (c :: ' ' :: cs) = [c] :: lineWords cs := by
  conv_lhs => unfold lineWords
  simp only [hc.1, hc.2, or_self, if_false, lineWords_space]
  cases lineWords cs <;> simp

theorem lineWords_char_char {c d : Char} {cs w : List Char} {ws : List (List Char)} (hc : c ≠ ' ' ∧ c ≠ '\t')
    (hd : d ≠ ' ' ∧ d ≠ '\t') (h : lineWords (d :: cs) = w :: ws) : lineWords (c :: d :: cs) = (c :: w) :: ws := by
  conv_lhs => unfold lineWords
  simp [hc, hd, h]

/-- A line of nothing but spaces and tabs has no word. -/
theorem lineWords_blank {l : List Char} (h : ∀ c ∈ l, c = ' ' ∨ c = '\t') : lineWords l = [] := by
  induction l with
  | nil => rfl
  | cons c l ih =>
    conv_lhs => unfold lineWords
    rw [if_pos (h c List.mem_cons_self)]
    exact ih fun d hd => h d (List.mem_cons_of_mem c hd)

/-- A word followed by a space is the first word of its line. -/
theorem lineWords_word_space {w : List Char} (h : IsWord w) (cs : List Char) :
    lineWords (w ++ ' ' :: cs) = w :: lineWords cs := by
  obtain ⟨h0, hw⟩ := h
  induction w with
  | nil => exact absurd rfl h0
  | cons c w ih =>
    have hc := hw c List.mem_cons_self
    cases w with
    | nil => exact lineWords_char_space ⟨hc.1, hc.2.1⟩ cs
    | cons d w =>
      have hd := hw d (by simp)
      exact lineWords_char_char ⟨hc.1, hc.2.1⟩ ⟨hd.1, hd.2.1⟩
        (ih (by simp) fun x hx => hw x (List.mem_cons_of_mem c hx))

/-- A word alone is the one word of its line. -/
theorem lineWords_word {w : List Char} (h : IsWord w) : lineWords w = [w] := by
  obtain ⟨h0, hw⟩ := h
  induction w with
  | nil => exact absurd rfl h0
  | cons c w ih =>
    have hc := hw c List.mem_cons_self
    cases w with
    | nil => simp [lineWords, hc]
    | cons d w =>
      have hd := hw d (by simp)
      exact lineWords_char_char ⟨hc.1, hc.2.1⟩ ⟨hd.1, hd.2.1⟩
        (ih (by simp) fun x hx => hw x (List.mem_cons_of_mem c hx))

theorem IsWord.no_slash {w : List Char} (h : IsWord w) : '/' ∉ w := fun hm => (h.2 _ hm).2.2 rfl

/-- The words of a line that holds two. -/
theorem lineWords_two {m w : List Char} (hm : IsWord m) (hw : IsWord w) :
    lineWords (stripComment (m ++ ' ' :: w)) = [m, w] := by
  rw [stripComment_append hm.no_slash, stripComment_cons (by decide), stripComment_of_no_slash hw.no_slash,
    lineWords_word_space hm, lineWords_word hw]

/-! Literals. -/

theorem digitValue_eq_some {base d : Nat} {c : Char} (hb : base ≤ 16) :
    digitValue base c = some d ↔ SpellsDigit base c d := by
  have spells : ∀ k v, (48 ≤ k ∧ k ≤ 57 ∧ v = k - 48) ∨ (65 ≤ k ∧ k ≤ 70 ∧ v = k - 55) ∨ (97 ≤ k ∧ k ≤ 102 ∧ v = k - 87) →
      Char.ofNat k = Nat.digitChar v ∨ Char.ofNat k = (Nat.digitChar v).toUpper := by
    rintro k v (⟨h, h', rfl⟩ | ⟨h, h', rfl⟩ | ⟨h, h', rfl⟩) <;> interval_cases k <;> decide
  constructor
  · intro h
    simp only [digitValue, Option.ite_none_right_eq_some, Option.some.injEq] at h
    obtain ⟨hlt, hd⟩ := h
    rw [hd] at hlt
    have hc := spells c.toNat d (by split_ifs at hd <;> omega)
    rw [Char.ofNat_toNat] at hc
    exact ⟨hlt, hc⟩
  · rintro ⟨hd, hc⟩
    have h16 : ∀ d < 16, ∀ c, (c = Nat.digitChar d ∨ c = (Nat.digitChar d).toUpper) → digitValue 16 c = some d := by
      rintro d hd c (rfl | rfl) <;> interval_cases d <;> decide
    have := h16 d (by omega) c hc
    simp only [digitValue, Option.ite_none_right_eq_some, Option.some.injEq] at this ⊢
    exact ⟨by omega, this.2⟩

theorem digitsValue_eq_some {base : Nat} (hb : base ≤ 16) {cs : List Char} {acc n : Nat} :
    digitsValue base acc cs = some n ↔
      ∃ ds : List Nat, ds ≠ [] ∧ List.Forall₂ (SpellsDigit base) cs ds ∧ n = ds.foldl (fun v d => v * base + d) acc := by
  induction cs generalizing acc with
  | nil => simp [digitsValue]
  | cons c cs ih =>
    cases cs with
    | nil =>
      simp only [digitsValue, Option.map_eq_some_iff, digitValue_eq_some hb]
      constructor
      · rintro ⟨d, hd, rfl⟩
        exact ⟨[d], by simp, by simpa using hd, rfl⟩
      · rintro ⟨ds, -, h, rfl⟩
        cases h with
        | cons hd ht => cases ht; exact ⟨_, hd, rfl⟩
    | cons c' cs =>
      rw [digitsValue]
      constructor
      · intro h
        cases hv : digitValue base c with
        | none => simp [hv] at h
        | some d =>
          rw [hv] at h
          obtain ⟨ds, -, hds, rfl⟩ := ih.mp h
          exact ⟨d :: ds, by simp, .cons ((digitValue_eq_some hb).mp hv) hds, rfl⟩
      · rintro ⟨ds, -, h, rfl⟩
        cases h with
        | cons hd ht =>
          rw [(digitValue_eq_some hb).mpr hd]
          refine ih.mpr ⟨_, ?_, ht, rfl⟩
          rintro rfl
          cases ht
      · simp

theorem numeral_iff {base : Nat} (hb : base ≤ 16) {cs : List Char} {n : Nat} :
    digitsValue base 0 cs = some n ↔ IsNumeral base cs n := digitsValue_eq_some hb

/-- The model reads a literal exactly where R78 has one, with the value its digits denote. -/
theorem literalValue_eq_some {w : List Char} {n : Nat} : literalValue w = some n ↔ IsLiteral w n := by
  have hx : ∀ cs m, ¬IsNumeral 10 ('0' :: 'x' :: cs) m := by
    rintro cs m ⟨ds, -, h, -⟩
    cases h with
    | cons _ h =>
      cases h with
      | cons h _ =>
        have hn : digitValue 10 'x' = none := by decide
        rw [← digitValue_eq_some (by decide), hn] at h
        cases h
  rw [literalValue.eq_def]
  split
  · rename_i cs
    rw [numeral_iff (by decide), IsLiteral]
    exact ⟨fun h => .inr ⟨cs, rfl, h⟩, fun h => h.elim (fun h => absurd h (hx cs n)) fun ⟨_, e, h⟩ => by cases e; exact h⟩
  · rename_i h
    rw [numeral_iff (by decide), IsLiteral]
    exact ⟨.inl, fun h' => h'.elim id fun ⟨cs, e, _⟩ => absurd e (h cs)⟩

theorem IsNumeral.isWord {base : Nat} (hb : base ≤ 16) {cs : List Char} {n : Nat} (h : IsNumeral base cs n) :
    IsWord cs := by
  obtain ⟨ds, h0, hf, -⟩ := h
  refine ⟨by rintro rfl; cases hf; exact h0 rfl, fun c hc => ?_⟩
  have hd : ∃ d, digitValue base c = some d := by
    clear h0
    induction hf with
    | nil => cases hc
    | cons h _ ih =>
      rcases List.mem_cons.mp hc with rfl | hc
      · exact ⟨_, (digitValue_eq_some hb).mpr h⟩
      · exact ih hc
  obtain ⟨d, hd⟩ := hd
  refine ⟨?_, ?_, ?_⟩ <;> rintro rfl <;> simp [digitValue] at hd <;> omega

theorem IsLiteral.isWord {w : List Char} {n : Nat} : IsLiteral w n → IsWord w
  | .inl h => h.isWord (by decide)
  | .inr ⟨_, e, h⟩ => e ▸ ⟨by simp, by simpa using (h.isWord (by decide)).2⟩

/-! Lines. -/

theorem operandMnemonics_isWord {p : List Char × (Arg → Instr)} (hp : p ∈ operandMnemonics) : IsWord p.1 := by
  simp only [operandMnemonics, List.mem_cons, List.not_mem_nil, or_false] at hp
  rcases hp with rfl | rfl | rfl | rfl | rfl <;> exact ⟨by simp, by simp⟩

/-- What a line whose first word is one of the five mnemonics with an operand stands for. -/
theorem assembleLine_operandMnemonic {p : List Char × (Arg → Instr)} (hp : p ∈ operandMnemonics) {line : List Char}
    {ws : List (List Char)} (h : lineWords (stripComment line) = p.1 :: ws) :
    assembleLine line = withOperand p.2 ws := by
  simp only [assembleLine, h]
  simp only [operandMnemonics, List.mem_cons, List.not_mem_nil, or_false] at hp
  rcases hp with rfl | rfl | rfl | rfl | rfl <;> simp

end Sys2Proof.Machine
end

