-- ==== Sys2Proof/Laws/State.lean ====
section
/-! SUPPORT. What each update of the state does to each field, so that no later proof unfolds a record update; and
what the shared responses are. -/

namespace Sys2Proof.Machine

/-! `State.accept` (R33) -/

@[simp] theorem State.accept_tablesValid (c : Command) (s : State) : (s.accept c).tablesValid = tablesValidAtAccept c s.tablesValid := rfl
@[simp] theorem State.accept_phase (c : Command) (s : State) : (s.accept c).phase = .busy := rfl
@[simp] theorem State.accept_cmd (c : Command) (s : State) : (s.accept c).cmd = c := rfl
@[simp] theorem State.accept_rsp (c : Command) (s : State) : (s.accept c).rsp = s.rsp := rfl
@[simp] theorem State.accept_mem (c : Command) (s : State) : (s.accept c).mem = s.mem := rfl
@[simp] theorem State.accept_seq (c : Command) (s : State) : (s.accept c).seq = s.seq := rfl
@[simp] theorem State.accept_pins (c : Command) (s : State) : (s.accept c).pins = s.pins := rfl
@[simp] theorem State.accept_delivered (c : Command) (s : State) : (s.accept c).delivered = s.delivered := rfl
@[simp] theorem State.accept_latencies (c : Command) (s : State) : (s.accept c).latencies = s.latencies.tail := rfl
@[simp] theorem State.accept_busyLeft (c : Command) (s : State) : (s.accept c).busyLeft = s.latencies.headD 0 := rfl
@[simp] theorem State.accept_edge (c : Command) (s : State) : (s.accept c).edge = s.edge := rfl

/-! `State.deliver` (R35) -/

@[simp] theorem State.deliver_tablesValid (s : State) : s.deliver.tablesValid = s.tablesValid := rfl
@[simp] theorem State.deliver_phase (s : State) : s.deliver.phase = .idle := rfl
@[simp] theorem State.deliver_cmd (s : State) : s.deliver.cmd = s.cmd := rfl
@[simp] theorem State.deliver_rsp (s : State) : s.deliver.rsp = s.rsp := rfl
@[simp] theorem State.deliver_mem (s : State) : s.deliver.mem = s.mem := rfl
@[simp] theorem State.deliver_seq (s : State) : s.deliver.seq = s.seq := rfl
@[simp] theorem State.deliver_pins (s : State) : s.deliver.pins = s.pins := rfl
@[simp] theorem State.deliver_delivered (s : State) : s.deliver.delivered = s.rsp :: s.delivered := rfl
@[simp] theorem State.deliver_latencies (s : State) : s.deliver.latencies = s.latencies := rfl
@[simp] theorem State.deliver_busyLeft (s : State) : s.deliver.busyLeft = s.busyLeft := rfl
@[simp] theorem State.deliver_edge (s : State) : s.deliver.edge = s.edge := rfl

/-! `State.clocked` -/

@[simp] theorem State.clocked_tablesValid (s : State) : s.clocked.tablesValid = s.tablesValid := rfl
@[simp] theorem State.clocked_phase (s : State) : s.clocked.phase = s.phase := rfl
@[simp] theorem State.clocked_cmd (s : State) : s.clocked.cmd = s.cmd := rfl
@[simp] theorem State.clocked_rsp (s : State) : s.clocked.rsp = s.rsp := rfl
@[simp] theorem State.clocked_mem (s : State) : s.clocked.mem = s.mem := rfl
@[simp] theorem State.clocked_seq (s : State) : s.clocked.seq = s.seq := rfl
@[simp] theorem State.clocked_pins (s : State) : s.clocked.pins = s.pins.tail := rfl
@[simp] theorem State.clocked_delivered (s : State) : s.clocked.delivered = s.delivered := rfl
@[simp] theorem State.clocked_latencies (s : State) : s.clocked.latencies = s.latencies := rfl
@[simp] theorem State.clocked_busyLeft (s : State) : s.clocked.busyLeft = s.busyLeft := rfl
@[simp] theorem State.clocked_edge (s : State) : s.clocked.edge = s.edge + 1 := rfl

/-! `State.wait` (R34) -/

@[simp] theorem State.wait_tablesValid (s : State) : s.wait.tablesValid = s.tablesValid := rfl
@[simp] theorem State.wait_phase (s : State) : s.wait.phase = s.phase := rfl
@[simp] theorem State.wait_cmd (s : State) : s.wait.cmd = s.cmd := rfl
@[simp] theorem State.wait_rsp (s : State) : s.wait.rsp = s.rsp := rfl
@[simp] theorem State.wait_mem (s : State) : s.wait.mem = s.mem := rfl
@[simp] theorem State.wait_seq (s : State) : s.wait.seq = s.seq := rfl
@[simp] theorem State.wait_pins (s : State) : s.wait.pins = s.pins := rfl
@[simp] theorem State.wait_delivered (s : State) : s.wait.delivered = s.delivered := rfl
@[simp] theorem State.wait_latencies (s : State) : s.wait.latencies = s.latencies := rfl
@[simp] theorem State.wait_busyLeft (s : State) : s.wait.busyLeft = s.busyLeft - 1 := rfl
@[simp] theorem State.wait_edge (s : State) : s.wait.edge = s.edge := rfl

/-! `State.resetPulse` (R210) -/

@[simp] theorem State.resetPulse_tablesValid (s : State) : s.resetPulse.tablesValid = false := rfl
@[simp] theorem State.resetPulse_phase (s : State) : s.resetPulse.phase = .idle := rfl
@[simp] theorem State.resetPulse_cmd (s : State) : s.resetPulse.cmd = ⟨Config.freeCmdOp s.edge, Config.freeCmdArg s.edge⟩ := rfl
@[simp] theorem State.resetPulse_rsp (s : State) : s.resetPulse.rsp = ⟨Config.freeRspStatus s.edge, Config.freeRspData s.edge, Config.freeRspCount s.edge⟩ := rfl
@[simp] theorem State.resetPulse_mem (s : State) : s.resetPulse.mem = Memory.unspecified s.edge := rfl
@[simp] theorem State.resetPulse_seq (s : State) : s.resetPulse.seq = InitSeq.unspecified s.edge := rfl
@[simp] theorem State.resetPulse_pins (s : State) : s.resetPulse.pins = s.pins := rfl
@[simp] theorem State.resetPulse_delivered (s : State) : s.resetPulse.delivered = s.delivered := rfl
@[simp] theorem State.resetPulse_latencies (s : State) : s.resetPulse.latencies = s.latencies := rfl
@[simp] theorem State.resetPulse_busyLeft (s : State) : s.resetPulse.busyLeft = 0 := rfl
@[simp] theorem State.resetPulse_edge (s : State) : s.resetPulse.edge = s.edge := rfl

/-! `State.acceptDue` -/

@[simp] theorem State.acceptDue_tablesValid (cw : CommandWord) (s : State) : (s.acceptDue cw).tablesValid = tablesValidAtAccept ⟨opField cw, argField cw⟩ s.tablesValid := rfl
@[simp] theorem State.acceptDue_phase (cw : CommandWord) (s : State) : (s.acceptDue cw).phase = .busy := rfl
@[simp] theorem State.acceptDue_cmd (cw : CommandWord) (s : State) : (s.acceptDue cw).cmd = ⟨opField cw, argField cw⟩ := rfl
@[simp] theorem State.acceptDue_rsp (cw : CommandWord) (s : State) : (s.acceptDue cw).rsp = s.rsp := rfl
@[simp] theorem State.acceptDue_mem (cw : CommandWord) (s : State) : (s.acceptDue cw).mem = s.mem := rfl
@[simp] theorem State.acceptDue_seq (cw : CommandWord) (s : State) : (s.acceptDue cw).seq = s.seq := rfl
@[simp] theorem State.acceptDue_pins (cw : CommandWord) (s : State) : (s.acceptDue cw).pins = HostPins.quiet :: s.pins := rfl
@[simp] theorem State.acceptDue_delivered (cw : CommandWord) (s : State) : (s.acceptDue cw).delivered = s.delivered := rfl
@[simp] theorem State.acceptDue_latencies (cw : CommandWord) (s : State) : (s.acceptDue cw).latencies = s.latencies := rfl
@[simp] theorem State.acceptDue_busyLeft (cw : CommandWord) (s : State) : (s.acceptDue cw).busyLeft = 0 := rfl
@[simp] theorem State.acceptDue_edge (cw : CommandWord) (s : State) : (s.acceptDue cw).edge = s.edge := rfl

/-! The port functions of an updated state depend on `pins` and `phase` alone. -/

theorem State.inputs_eq (s : State) : s.inputs = s.pins.headD HostPins.quiet := rfl

@[simp] theorem State.acceptDue_inputs (cw : CommandWord) (s : State) : (s.acceptDue cw).inputs = HostPins.quiet := rfl

@[simp] theorem quiet_rst : HostPins.quiet.rst = false := rfl
@[simp] theorem quiet_cmdValid : HostPins.quiet.cmdValid = false := rfl
@[simp] theorem quiet_rspReady : HostPins.quiet.rspReady = false := rfl

/-! The responses (R12, R183). -/

/-- `s` with a response formed: all that COMPLETE of a command that writes no other state changes (R34). -/
theorem respond_eq (st : Status) (d : Arg) (n : BitVec 2) (s : State) :
    respond st d n s = .next { s with rsp := ⟨st.code, d, n⟩, phase := .resp } := rfl

theorem raise_eq (st : Status) (s : State) :
    raise st s = .next { s with rsp := errorResponse st, phase := .resp } := rfl

@[simp] theorem code_ok : Status.ok.code = 0 := rfl
@[simp] theorem code_illegalOp : Status.illegalOp.code = 1 := rfl
@[simp] theorem code_invalidInput : Status.invalidInput.code = 2 := rfl
@[simp] theorem code_uninit : Status.uninit.code = 3 := rfl
@[simp] theorem code_initFail : Status.initFail.code = 4 := rfl

/-- A response answers next with exactly one state. -/
theorem respond_next {st : Status} {d : Arg} {n : BitVec 2} {s t : State} (h : respond st d n s = .next t) :
    t = { s with rsp := ⟨st.code, d, n⟩, phase := .resp } := by
  simpa [respond_eq, eq_comm] using h

theorem raise_next {st : Status} {s t : State} (h : raise st s = .next t) :
    t = { s with rsp := errorResponse st, phase := .resp } := by
  simpa [raise_eq, eq_comm] using h

end Sys2Proof.Machine
end

