-- ==== Sys2Proof/Laws/Memory.lean ====
section
/-! SUPPORT. The laws of the two tables (spec/20_memory.md R50 to R57): a read after a write, and that an array is its
entries. -/

namespace Sys2Proof.Machine

/-- A read of the entry just written gives the value written. -/
theorem Table.read_write_same {k : Nat} (t : Table k) {i : Nat} (h : i < 2 ^ k) (v : Pattern) :
    (t.write i v).read i = v := by
  induction t generalizing i with
  | leaf u => rfl
  | @node k lo hi ihlo ihhi =>
    by_cases hi' : i < 2 ^ k
    · simp [Table.write, Table.read, hi', ihlo hi']
    · simp [Table.write, Table.read, hi', ihhi (show i - 2 ^ k < 2 ^ k by rw [pow_succ] at h; omega)]

/-- A write leaves every other entry alone. -/
theorem Table.read_write_other {k : Nat} (t : Table k) {i j : Nat} (hi : i < 2 ^ k) (hj : j < 2 ^ k) (hne : j ≠ i)
    (v : Pattern) : (t.write i v).read j = t.read j := by
  induction t generalizing i j with
  | leaf u => simp at hi hj; omega
  | @node k lo hi' ihlo ihhi =>
    rw [pow_succ] at hi hj
    by_cases h1 : i < 2 ^ k <;> by_cases h2 : j < 2 ^ k <;> simp only [Table.write, Table.read, h1, h2, if_true, if_false]
    · exact ihlo h1 h2 hne
    · exact ihhi (by omega) (by omega) (by omega)

theorem Table.read_write {k : Nat} (t : Table k) {i j : Nat} (hi : i < 2 ^ k) (hj : j < 2 ^ k) (v : Pattern) :
    (t.write i v).read j = if j = i then v else t.read j := by
  split
  · next h => rw [h, Table.read_write_same t hi]
  · next h => exact Table.read_write_other t hi hj h v

/-- The array made of the entries `f` has the entries `f`. -/
theorem Table.read_ofEntries {k : Nat} (f : Nat → Pattern) {i : Nat} (h : i < 2 ^ k) :
    (Table.ofEntries k f).read i = f i := by
  induction k generalizing f i with
  | zero => obtain rfl : i = 0 := by simpa using h
            rfl
  | succ k ih =>
    rw [pow_succ] at h
    by_cases h' : i < 2 ^ k
    · simp [Table.ofEntries, Table.read, h', ih f h']
    · have : i - 2 ^ k < 2 ^ k := by omega
      simp only [Table.ofEntries, Table.read, h', if_false]
      rw [ih _ this, Nat.add_sub_cancel' (by omega)]

/-- Two arrays of a size with the same entries are the same data: there is one form. -/
theorem Table.ext_read {k : Nat} {t u : Table k} (h : ∀ i < 2 ^ k, t.read i = u.read i) : t = u := by
  induction t with
  | leaf v => cases u with | leaf w => simpa [Table.read] using h 0 (by simp)
  | @node k lo hi ihlo ihhi =>
    cases u with
    | node lo' hi' =>
      rw [pow_succ] at h
      obtain rfl : lo = lo' := ihlo fun i h' => by simpa [Table.read, h'] using h i (by omega)
      obtain rfl : hi = hi' := ihhi fun i h' => by
        simpa [Table.read, Nat.add_sub_cancel_left] using h (2 ^ k + i) (by omega)
      rfl

@[simp] theorem Memory.readSlt_writeSlt (m : Memory) (i j : DataWord) (v : Pattern) :
    (m.writeSlt i v).readSlt j = if j = i then v else m.readSlt j := by
  simp only [Memory.readSlt, Memory.writeSlt]
  rw [Table.read_write _ i.isLt j.isLt]
  simp [BitVec.toNat_inj]

@[simp] theorem Memory.readEpl_writeEpl (m : Memory) (i j : Syndrome) (v : Pattern) :
    (m.writeEpl i v).readEpl j = if j = i then v else m.readEpl j := by
  simp only [Memory.readEpl, Memory.writeEpl]
  rw [Table.read_write _ i.isLt j.isLt]
  simp [BitVec.toNat_inj]

@[simp] theorem Memory.readEpl_writeSlt (m : Memory) (i : DataWord) (j : Syndrome) (v : Pattern) :
    (m.writeSlt i v).readEpl j = m.readEpl j := rfl

@[simp] theorem Memory.readSlt_writeEpl (m : Memory) (i : Syndrome) (j : DataWord) (v : Pattern) :
    (m.writeEpl i v).readSlt j = m.readSlt j := rfl

/-- Two memories with the same entries are the same data. -/
theorem Memory.ext_read {m n : Memory} (hs : ∀ d, m.readSlt d = n.readSlt d) (he : ∀ x, m.readEpl x = n.readEpl x) :
    m = n := by
  obtain ⟨sm, em⟩ := m
  obtain ⟨sn, en⟩ := n
  obtain rfl : sm = sn := Table.ext_read fun i hi => by
    have h := hs (BitVec.ofNat 12 i)
    rwa [Memory.readSlt, Memory.readSlt, BitVec.toNat_ofNat, Nat.mod_eq_of_lt hi] at h
  obtain rfl : em = en := Table.ext_read fun i hi => by
    have h := he (BitVec.ofNat 11 i)
    rwa [Memory.readEpl, Memory.readEpl, BitVec.toNat_ofNat, Nat.mod_eq_of_lt hi] at h
  rfl

@[simp] theorem Memory.unspecified_readSlt (e : Nat) (d : DataWord) :
    (Memory.unspecified e).readSlt d = Config.freeSltEntry e d.toNat := Table.read_ofEntries _ d.isLt

@[simp] theorem Memory.unspecified_readEpl (e : Nat) (x : Syndrome) :
    (Memory.unspecified e).readEpl x = Config.freeEplEntry e x.toNat := Table.read_ofEntries _ x.isLt

end Sys2Proof.Machine
end

