-- ==== Sys2Proof/Laws/Divider.lean ====
section
/-! SUPPORT. The divider's function step by step (spec/40_divider.md): each step adds a multiple of G that depends
linearly on the pattern, clears its bit, and leaves the bits above alone. -/

namespace Sys2Proof.Machine

/-- One step is additive. -/
theorem cancelBit_xor (a b : Pattern) (k : Nat) : cancelBit (a ^^^ b) k = cancelBit a k ^^^ cancelBit b k := by
  unfold cancelBit
  rw [BitVec.getLsbD_xor]
  cases ha : a.getLsbD k <;> cases hb : b.getLsbD k <;> simp only [Bool.xor, Bool.bne_false, Bool.bne_true,
    Bool.not_true, Bool.not_false, if_true, if_false, Bool.false_eq_true]
  · ac_rfl
  · ac_rfl
  · rw [show a ^^^ Config.generator <<< (k - 11) ^^^ (b ^^^ Config.generator <<< (k - 11))
      = a ^^^ b ^^^ (Config.generator <<< (k - 11) ^^^ Config.generator <<< (k - 11)) by ac_rfl]
    simp

/-- A run of steps is additive. -/
theorem cancelBits_xor (ks : List Nat) (a b : Pattern) :
    ks.foldl cancelBit (a ^^^ b) = ks.foldl cancelBit a ^^^ ks.foldl cancelBit b := by
  induction ks generalizing a b with
  | nil => rfl
  | cons k ks ih => rw [List.foldl_cons, List.foldl_cons, List.foldl_cons, cancelBit_xor, ih]

/-- The syndrome is additive. -/
theorem syndrome_xor (a b : Pattern) : syndrome (a ^^^ b) = syndrome a ^^^ syndrome b := by
  unfold syndrome
  rw [cancelBits_xor, BitVec.setWidth_xor]

end Sys2Proof.Machine
end

