-- ==== Sys2Proof/Laws/Operands.lean ====
section
/-! SUPPORT. The legal argument of each command is a range (spec/30_encoding.md R75, spec/60_exceptions.md R182). -/

namespace Sys2Proof.Machine

/-- A word has no bit outside the low `k` exactly when it is below 2^k. -/
theorem and_not_mask_eq_zero_iff (k : Nat) (a : Arg) :
    a &&& ~~~(BitVec.ofNat 32 (2 ^ k - 1)) = 0 ↔ a.toNat < 2 ^ k := by
  have bit : ∀ i < 32, (a &&& ~~~(BitVec.ofNat 32 (2 ^ k - 1))).getLsbD i = (a.getLsbD i && !decide (i < k)) := by
    intro i hi
    rw [BitVec.getLsbD_and, BitVec.getLsbD_not, BitVec.getLsbD_ofNat, Nat.testBit_two_pow_sub_one]
    simp [hi]
  constructor
  · intro h
    apply Nat.lt_pow_two_of_testBit
    intro i hi
    by_cases h32 : i < 32
    · have hb := bit i h32
      rw [h] at hb
      simpa [BitVec.getLsbD, Nat.not_lt.mpr hi] using hb.symm
    · exact BitVec.getLsbD_of_ge a i (by omega)
  · intro h
    apply BitVec.eq_of_getLsbD_eq
    intro i hi
    rw [bit i hi]
    by_cases hik : i < k
    · simp [hik]
    · rw [show a.getLsbD i = false from
        Nat.testBit_lt_two_pow (lt_of_lt_of_le h (Nat.pow_le_pow_right (by omega) (by omega)))]
      simp

theorem argLegal_initMask (a : Arg) : argLegal initMask a = true ↔ a = 0 := by
  rw [argLegal, beq_iff_eq, initMask, show ~~~(0 : Arg) = BitVec.allOnes 32 by decide, BitVec.and_allOnes]

theorem argLegal_encodeMask (a : Arg) : argLegal encodeMask a = true ↔ a.toNat ≤ 0xFFF := by
  rw [argLegal, beq_iff_eq, ← Nat.lt_add_one_iff]
  exact and_not_mask_eq_zero_iff 12 a

theorem argLegal_decodeMask (a : Arg) : argLegal decodeMask a = true ↔ a.toNat ≤ 0x7FFFFF := by
  rw [argLegal, beq_iff_eq, ← Nat.lt_add_one_iff]
  exact and_not_mask_eq_zero_iff 23 a

theorem argLegal_syndromeMask (a : Arg) : argLegal syndromeMask a = true ↔ a.toNat ≤ 0x7FFFFF :=
  argLegal_decodeMask a

theorem argLegal_rdSltMask (a : Arg) : argLegal rdSltMask a = true ↔ a.toNat ≤ 0xFFF :=
  argLegal_encodeMask a

theorem argLegal_rdEplMask (a : Arg) : argLegal rdEplMask a = true ↔ a.toNat ≤ 0x7FF := by
  rw [argLegal, beq_iff_eq, ← Nat.lt_add_one_iff]
  exact and_not_mask_eq_zero_iff 11 a

end Sys2Proof.Machine
end

