-- ==== Sys2Proof/Laws/Encoding.lean ====
section
/-! SUPPORT. The fields of a command word (spec/30_encoding.md R70). -/

namespace Sys2Proof

@[simp] theorem opField_append (op : Op) (a : Arg) : opField (op ++ a) = op := by
  apply BitVec.eq_of_getLsbD_eq
  intro i hi
  have h := BitVec.getLsbD_append (x := op) (y := a) (i := 32 + i)
  rw [opField, BitVec.getLsbD_extractLsb']
  simpa [hi] using h

@[simp] theorem argField_append (op : Op) (a : Arg) : argField (op ++ a) = a := by
  apply BitVec.eq_of_getLsbD_eq
  intro i hi
  have h := BitVec.getLsbD_append (x := op) (y := a) (i := i)
  rw [argField, BitVec.getLsbD_extractLsb']
  simpa [hi] using h

/-- A command word is its two fields. -/
theorem opField_append_argField (cw : CommandWord) : opField cw ++ argField cw = cw := by
  apply BitVec.eq_of_getLsbD_eq
  intro i hi
  refine (BitVec.getLsbD_append (x := opField cw) (y := argField cw) (i := i)).trans ?_
  rw [opField, argField, BitVec.getLsbD_extractLsb', BitVec.getLsbD_extractLsb']
  split
  · simp [*]
  · have h4 : i - 32 < 4 := by omega
    have h36 : 32 + (i - 32) = i := by omega
    simp [h4, h36]

/-- The command an opcode selects has that opcode and the argument given. -/
theorem decodeCommand_fields (op : Op) (a : Arg) :
    (decodeCommand op a).opcode = op ∧ (decodeCommand op a).arg = a := by
  obtain ⟨⟨n, hn⟩⟩ := op
  have h16 : n < 16 := hn
  interval_cases n <;> exact ⟨rfl, rfl⟩

/-- A command is the one its opcode and argument select. -/
theorem decodeCommand_opcode_arg (i : Instr) : decodeCommand i.opcode i.arg = i := by cases i <;> rfl

end Sys2Proof
end

