-- ==== Sys2Proof/Laws/Build.lean ====
section
/-! SUPPORT. What the fill steps of INIT do (spec/41_init.md R125 to R130): step 1 leaves the codewords in SLT; step 2 is
one `put` per pattern of a fixed list, whatever the divider; every slot that is written holds a pattern of that slot;
and with the block's divider every slot is written. -/

namespace Sys2Proof.Machine

/-- The combinations that `calls` calls give after `a`, in order; `none` if a call faults. -/
def laterCombinations (n r : Nat) : Nat → List Nat → Option (List (List Nat))
  | 0, _ => some []
  | calls + 1, a =>
    match nextCombination n r a with
    | none => none
    | some next => (laterCombinations n r calls next).map (next :: ·)

/-- The patterns step 2 puts for weight `r` (R128). -/
def patternsOfWeight (r : Nat) : Option (List Pattern) :=
  let seed := (List.range r).map (· + 1)
  (laterCombinations Config.codeLength r (Nat.choose Config.codeLength r - 1) seed).map
    (fun l => (seed :: l).map toBitvector)

/-- The patterns of weight 1, positions 0 to 22 (R128). -/
def singleBits : List Pattern := (List.range Config.codeLength).map (fun k => 1#23 <<< k)

/-- The part of a build that `put` reads and writes: the tables and the coverage bitmap. -/
def eplView (b : Build) : Memory × BitVec 2048 := (b.mem, b.seq.written)

/-- `put` on that part (R127). -/
def putView (div : Pattern → Syndrome) (v : Memory × BitVec 2048) (e : Pattern) : Memory × BitVec 2048 :=
  (v.1.writeEpl (div e) e, v.2 ||| (1#2048 <<< (div e).toNat))

theorem eplView_put (div : Pattern → Syndrome) (b : Build) (e : Pattern) :
    eplView (put div b e) = putView div (eplView b) e := rfl

/-- The remaining calls of a weight put the later combinations in order. -/
theorem putRemaining_view (div : Pattern → Syndrome) (r : Nat) :
    ∀ (calls : Nat) (a : List Nat) (b : Build),
      (putRemaining div r calls a b).map eplView =
        (laterCombinations Config.codeLength r calls a).map
          (fun l => (l.map toBitvector).foldl (putView div) (eplView b))
  | 0, a, b => rfl
  | calls + 1, a, b => by
    rw [putRemaining, laterCombinations]
    cases nextCombination Config.codeLength r a with
    | none => rfl
    | some next =>
      simp only
      rw [putRemaining_view div r calls next]
      cases laterCombinations Config.codeLength r calls next <;> rfl

/-- A weight of step 2 puts its patterns in order. -/
theorem putWeight_view (div : Pattern → Syndrome) (r : Nat) (b : Build) :
    (putWeight div r b).map eplView =
      (patternsOfWeight r).map (fun l => l.foldl (putView div) (eplView b)) := by
  simp only [putWeight, putRemaining_view, patternsOfWeight, Option.map_map]
  rfl

theorem putWeightOne_view (div : Pattern → Syndrome) (b : Build) :
    eplView (putWeightOne div b) = singleBits.foldl (putView div) (eplView b) := by
  rw [putWeightOne, singleBits, List.foldl_map]
  generalize List.range Config.codeLength = l
  induction l generalizing b with
  | nil => rfl
  | cons k l ih => rw [List.foldl_cons, List.foldl_cons, ih, eplView_put]

/-- The patterns step 2 puts after the zero pattern, in its order (R128). -/
def patterns : Option (List Pattern) :=
  match patternsOfWeight 2, patternsOfWeight 3 with
  | some l2, some l3 => some (singleBits ++ l2 ++ l3)
  | _, _ => none

/-- Step 2 is the puts of `patterns` in order, after slot 0. -/
theorem fillEpl_view (div : Pattern → Syndrome) (b : Build) :
    (fillEpl div b).map eplView =
      patterns.map (fun l => l.foldl (putView div) (b.mem.writeEpl 0 0, 1#2048)) := by
  have h2 := putWeight_view div 2 (putWeightOne div (putWeightZero b))
  have h3 := fun b2 => putWeight_view div 3 b2
  rw [putWeightOne_view, show eplView (putWeightZero b) = (b.mem.writeEpl 0 0, 1#2048) from rfl] at h2
  unfold fillEpl patterns
  generalize putWeight div 2 (putWeightOne div (putWeightZero b)) = w2 at h2 ⊢
  generalize putWeight div 3 = w3 at h3 ⊢
  generalize patternsOfWeight 2 = p2 at h2 ⊢
  generalize patternsOfWeight 3 = p3 at h3 ⊢
  cases w2 with
  | none =>
    cases p2 with
    | none => cases p3 <;> rfl
    | some l => cases h2
  | some b2 =>
    cases p2 with
    | none => cases h2
    | some l =>
      have h2' : eplView b2 = _ := Option.some.inj h2
      have e3 := h3 b2
      rw [h2'] at e3
      cases p3 with
      | none => exact e3
      | some l3 =>
        refine e3.trans ?_
        simp only [Option.map_some, List.foldl_append]

/-- The enumerator is never called past its last combination, every pattern put is nonzero and has weight at most 3. -/
theorem patterns_checked :
    patterns.map (fun l => l.all (fun e => decide (e ≠ 0) && decide (popcount e ≤ Config.correctable))) = some true := by
  decide +kernel

set_option maxRecDepth 20000 in
/-- With the block's divider the patterns reach every slot. -/
theorem patterns_cover :
    patterns.map (fun l => covered (l.foldl (fun w e => w ||| (1#2048 <<< (syndrome e).toNat)) 1#2048)) = some true := by
  decide +kernel

/-- The list of patterns, with what is checked of it. -/
theorem patterns_spec : ∃ l, patterns = some l ∧ (∀ e ∈ l, e ≠ 0 ∧ popcount e ≤ Config.correctable) ∧
    covered (l.foldl (fun w e => w ||| (1#2048 <<< (syndrome e).toNat)) 1#2048) = true := by
  have h1 := patterns_checked
  have h2 := patterns_cover
  generalize patterns = p at h1 h2 ⊢
  cases p with
  | none => cases h1
  | some l =>
    refine ⟨l, rfl, fun e he => ?_, Option.some.inj h2⟩
    have := List.all_eq_true.mp (Option.some.inj h1) e he
    simpa using this

/-- The bitmap after a run of puts does not depend on the tables. -/
theorem putView_written (div : Pattern → Syndrome) (l : List Pattern) (v : Memory × BitVec 2048) :
    (l.foldl (putView div) v).2 = l.foldl (fun w e => w ||| (1#2048 <<< (div e).toNat)) v.2 := by
  induction l generalizing v with
  | nil => rfl
  | cons e l ih => rw [List.foldl_cons, List.foldl_cons, ih]; rfl

/-- A run of puts leaves SLT alone. -/
theorem putView_readSlt (div : Pattern → Syndrome) (l : List Pattern) (v : Memory × BitVec 2048) (d : DataWord) :
    (l.foldl (putView div) v).1.readSlt d = v.1.readSlt d := by
  induction l generalizing v with
  | nil => rfl
  | cons e l ih => rw [List.foldl_cons, ih]; rfl

/-- The bit that `put` sets in the bitmap. -/
theorem putView_bit (div : Pattern → Syndrome) (v : Memory × BitVec 2048) (e : Pattern) (x : Syndrome) :
    (putView div v e).2.getLsbD x.toNat = (v.2.getLsbD x.toNat || decide (x = div e)) := by
  have hx : x.toNat < 2048 := x.isLt
  have hd : (div e).toNat < 2048 := (div e).isLt
  simp only [putView, BitVec.getLsbD_or, BitVec.getLsbD_shiftLeft, BitVec.getLsbD_one, hx, decide_true, Bool.true_and]
  congr 1
  rw [Bool.eq_iff_iff]
  simp only [Bool.and_eq_true, Bool.not_eq_true', decide_eq_false_iff_not, decide_eq_true_eq, ← BitVec.toNat_inj]
  omega

/-- Every slot marked as written holds a pattern of weight at most 3 that belongs into it. -/
def Placed (div : Pattern → Syndrome) (v : Memory × BitVec 2048) : Prop :=
  ∀ x : Syndrome, v.2.getLsbD x.toNat = true →
    slotOf div (v.1.readEpl x) = x ∧ popcount (v.1.readEpl x) ≤ Config.correctable

theorem placed_put {div : Pattern → Syndrome} {v : Memory × BitVec 2048} (h : Placed div v) {e : Pattern}
    (he : e ≠ 0) (hw : popcount e ≤ Config.correctable) : Placed div (putView div v e) := by
  intro x hx
  rw [putView_bit, Bool.or_eq_true, decide_eq_true_eq] at hx
  have hr : (putView div v e).1.readEpl x = if x = div e then e else v.1.readEpl x := Memory.readEpl_writeEpl _ _ _ _
  rw [hr]
  by_cases hxe : x = div e
  · rw [if_pos hxe, slotOf, if_neg he]
    exact ⟨hxe.symm, hw⟩
  · rw [if_neg hxe]
    exact h x (hx.resolve_right hxe)

theorem placed_puts {div : Pattern → Syndrome} {l : List Pattern}
    (hl : ∀ e ∈ l, e ≠ 0 ∧ popcount e ≤ Config.correctable) {v : Memory × BitVec 2048} (h : Placed div v) :
    Placed div (l.foldl (putView div) v) := by
  induction l generalizing v with
  | nil => exact h
  | cons e l ih =>
    rw [List.foldl_cons]
    have he := hl e (by simp)
    exact ih (fun f hf => hl f (by simp [hf])) (placed_put h he.1 he.2)

/-- A run of puts clears no bit of the bitmap. -/
theorem putView_keepsBit (div : Pattern → Syndrome) (l : List Pattern) (v : Memory × BitVec 2048) (x : Syndrome)
    (h : v.2.getLsbD x.toNat = true) : (l.foldl (putView div) v).2.getLsbD x.toNat = true := by
  induction l generalizing v with
  | nil => exact h
  | cons e l ih => exact ih _ (by rw [putView_bit, h]; rfl)

/-- A slot that no put marks keeps its entry. -/
theorem putView_unwritten (div : Pattern → Syndrome) (l : List Pattern) (v : Memory × BitVec 2048) (x : Syndrome)
    (h : (l.foldl (putView div) v).2.getLsbD x.toNat = false) :
    (l.foldl (putView div) v).1.readEpl x = v.1.readEpl x := by
  induction l generalizing v with
  | nil => rfl
  | cons e l ih =>
    rw [List.foldl_cons] at h ⊢
    rw [ih _ h]
    have hne : x ≠ div e := by
      rintro rfl
      rw [putView_keepsBit div l _ (div e) (by rw [putView_bit]; simp)] at h
      cases h
    exact (Memory.readEpl_writeEpl _ _ _ _).trans (if_neg hne)

/-- Step 1 up to `n` leaves the codewords below `n`, and EPL and the bitmap alone. -/
theorem fillSlt_upTo (div : Pattern → Syndrome) (b : Build) (n : Nat) (hn : n ≤ 4096) :
    (∀ d : DataWord, ((List.range n).foldl (fillSltEntry div) b).mem.readSlt d =
      if d.toNat < n then codewordBy div d else b.mem.readSlt d) ∧
    (∀ x, ((List.range n).foldl (fillSltEntry div) b).mem.readEpl x = b.mem.readEpl x) ∧
    ((List.range n).foldl (fillSltEntry div) b).seq.written = b.seq.written := by
  induction n with
  | zero => simp
  | succ n ih =>
    obtain ⟨h1, h2, h3⟩ := ih (by omega)
    rw [List.range_succ, List.foldl_append]
    refine ⟨fun d => ?_, fun x => ?_, h3⟩
    · refine (Memory.readSlt_writeSlt _ _ _ _).trans ?_
      by_cases hd : d = BitVec.ofNat 12 n
      · have : d.toNat = n := by rw [hd, BitVec.toNat_ofNat, Nat.mod_eq_of_lt (by omega)]
        rw [if_pos hd, if_pos (by omega), hd]
      · have : d.toNat ≠ n := fun h => hd (by rw [← h, BitVec.ofNat_toNat, BitVec.setWidth_eq])
        rw [if_neg hd, h1]
        by_cases hlt : d.toNat < n
        · rw [if_pos hlt, if_pos (by omega)]
        · rw [if_neg hlt, if_neg (by omega)]
    · exact (Memory.readEpl_writeSlt _ _ _ _).trans (h2 x)

/-- Step 1 (R125): SLT holds the codewords, EPL and the bitmap are untouched. -/
theorem fillSlt_spec (div : Pattern → Syndrome) (b : Build) :
    (∀ d, (fillSlt div b).mem.readSlt d = codewordBy div d) ∧
    (∀ x, (fillSlt div b).mem.readEpl x = b.mem.readEpl x) := by
  have h := fillSlt_upTo div b 4096 le_rfl
  exact ⟨fun d => (h.1 d).trans (if_pos d.isLt), h.2.1⟩

/-- Both fill steps, with any divider: they end; SLT holds the codewords; EPL is the puts of the patterns in order. -/
theorem buildTables_view (div : Pattern → Syndrome) (m : Memory) (q : InitSeq) {l : List Pattern}
    (hl : patterns = some l) : ∃ b, buildTables div m q = some b ∧
      eplView b = l.foldl (putView div) ((fillSlt div ⟨m, q⟩).mem.writeEpl 0 0, 1#2048) := by
  have h := fillEpl_view div (fillSlt div ⟨m, q⟩)
  rw [hl] at h
  obtain ⟨b, hb, he⟩ := Option.map_eq_some_iff.mp (h.trans rfl)
  exact ⟨b, hb, he⟩

/-- What every build satisfies, with any divider. -/
theorem buildTables_spec (div : Pattern → Syndrome) (m : Memory) (q : InitSeq) : ∃ b, buildTables div m q = some b ∧
    (∀ d, b.mem.readSlt d = codewordBy div d) ∧ Placed div (eplView b) ∧
    (∀ x : Syndrome, b.seq.written.getLsbD x.toNat = false → b.mem.readEpl x = m.readEpl x) := by
  obtain ⟨l, hl, hw, -⟩ := patterns_spec
  obtain ⟨b, hb, he⟩ := buildTables_view div m q hl
  have hm : b.mem = (eplView b).1 := rfl
  have hq : b.seq.written = (eplView b).2 := rfl
  have start : Placed div ((fillSlt div ⟨m, q⟩).mem.writeEpl 0 0, 1#2048) := by
    intro x hx
    obtain rfl : x = 0 := by
      rw [BitVec.getLsbD_one] at hx
      exact BitVec.eq_of_toNat_eq (by simpa using hx)
    rw [Memory.readEpl_writeEpl, if_pos rfl]
    exact ⟨rfl, by decide⟩
  refine ⟨b, hb, fun d => ?_, he ▸ placed_puts hw start, fun x hx => ?_⟩
  · rw [hm, he, putView_readSlt, Memory.readSlt_writeEpl]
    exact (fillSlt_spec div _).1 d
  · rw [hq, he] at hx
    rw [hm, he, putView_unwritten div l _ x hx, Memory.readEpl_writeEpl, if_neg, (fillSlt_spec div _).2]
    rintro rfl
    have h0 : (1#2048).getLsbD 0 = true := by rw [BitVec.getLsbD_one]; rfl
    have := putView_keepsBit div l ((fillSlt div ⟨m, q⟩).mem.writeEpl 0 0, 1#2048) 0 h0
    rw [this] at hx
    cases hx

/-- A full bitmap has every bit set. -/
theorem covered_iff (w : BitVec 2048) : covered w = true ↔ ∀ i, i < 2048 → w.getLsbD i = true := by
  rw [covered, beq_iff_eq]
  constructor
  · rintro rfl i hi
    rw [BitVec.getLsbD_allOnes, decide_eq_true hi]
  · intro h
    apply BitVec.eq_of_getLsbD_eq
    intro i hi
    rw [h i hi, BitVec.getLsbD_allOnes, decide_eq_true hi]

/-- Both fill steps with the block's divider, whatever the tables and the sequencer held (R125, R128, R130): they end,
every slot is written, and the tables hold their contents. -/
theorem buildTables_syndrome (m : Memory) (q : InitSeq) :
    ∃ b, buildTables syndrome m q = some b ∧ covered b.seq.written = true ∧ TablesBuilt b.mem := by
  obtain ⟨l, hl, -, hc⟩ := patterns_spec
  obtain ⟨b, hb, he⟩ := buildTables_view syndrome m q hl
  obtain ⟨b', hb', hs, hp, -⟩ := buildTables_spec syndrome m q
  obtain rfl : b = b' := Option.some.inj (hb.symm.trans hb')
  have hcov : covered b.seq.written = true := by
    rw [show b.seq.written = (eplView b).2 from rfl, he, putView_written]
    exact hc
  refine ⟨b, hb, hcov, hs, fun x => ?_⟩
  obtain ⟨h1, h2⟩ := hp x ((covered_iff _).mp hcov _ x.isLt)
  refine ⟨?_, h2⟩
  rw [slotOf] at h1
  split at h1
  · next h0 => rw [show b.mem.readEpl x = 0 from h0, ← h1]; decide
  · exact h1

end Sys2Proof.Machine
end

