-- ==== Sys2Proof/Laws/Code.lean ====
section
/-! SUPPORT. The code: the syndrome of low patterns and of codewords (spec/40_divider.md R104), and the counting argument
of the perfect code (spec/20_memory.md R53 (f)): 1 + 23 + 253 + 1771 = 2048 patterns of weight at most 3, one for each
syndrome. -/

namespace Sys2Proof.Machine

/-- A step at a clear bit does nothing. -/
theorem cancelBit_clear {p : Pattern} {k : Nat} (h : p.getLsbD k = false) : cancelBit p k = p := by
  rw [cancelBit, h]
  rfl

/-- The division leaves a pattern without bits at 11 and above alone. -/
theorem cancelBits_low {p : Pattern} {ks : List Nat} (h : ∀ k ∈ ks, p.getLsbD k = false) :
    ks.foldl cancelBit p = p := by
  induction ks with
  | nil => rfl
  | cons k ks ih => rw [List.foldl_cons, cancelBit_clear (h k (by simp)), ih fun j hj => h j (by simp [hj])]

/-- The syndrome of an 11-bit value is the value. -/
theorem syndrome_setWidth (x : Syndrome) : syndrome (x.setWidth 23) = x := by
  rw [syndrome, cancelBits_low, BitVec.setWidth_setWidth_of_le _ (by decide), BitVec.setWidth_eq]
  intro k hk
  rw [BitVec.getLsbD_setWidth, BitVec.getLsbD_of_ge x k (by revert k; decide), Bool.and_false]

theorem codeword_eq (d : DataWord) :
    codeword d = (d.setWidth 23 <<< 11) ^^^ (syndrome (d.setWidth 23 <<< 11)).setWidth 23 := rfl

/-- Every codeword has syndrome 0 (R125). -/
theorem syndrome_codeword (d : DataWord) : syndrome (codeword d) = 0 := by
  rw [codeword_eq, syndrome_xor, syndrome_setWidth, BitVec.xor_self]
  rfl

/-- The upper 12 bits of a codeword are the data (R125). -/
theorem codeword_shift (d : DataWord) : codeword d >>> 11 = d.setWidth 23 := by
  apply BitVec.eq_of_getLsbD_eq
  intro i hi
  rw [codeword_eq, BitVec.getLsbD_ushiftRight, BitVec.getLsbD_xor, BitVec.getLsbD_shiftLeft, BitVec.getLsbD_setWidth,
    BitVec.getLsbD_setWidth, BitVec.getLsbD_setWidth, BitVec.getLsbD_of_ge (syndrome _) (11 + i) (by omega),
    show 11 + i - 11 = i by omega]
  by_cases h : 11 + i < 23
  · simp [h, hi]
  · simp [h, BitVec.getLsbD_of_ge d i (by omega)]

/-- The set bits of a pattern. -/
def support (e : Pattern) : Finset (Fin 23) := Finset.univ.filter (fun i => e.getLsbD i = true)

theorem support_injective : Function.Injective support := by
  intro a b h
  apply BitVec.eq_of_getLsbD_eq
  intro i hi
  have h' := Finset.ext_iff.mp h ⟨i, hi⟩
  simp only [support, Finset.mem_filter, Finset.mem_univ, true_and] at h'
  exact Bool.eq_iff_iff.mpr h'

/-- The weight is the number of set bits (R13). -/
theorem card_support (e : Pattern) : (support e).card = popcount e := by
  have hc : (support e).card = ((List.finRange 23).filter (fun i : Fin 23 => e.getLsbD i)).length := by
    rw [support, Fin.univ_def, Finset.card, Finset.filter]
    simp only [Multiset.filter_coe, Multiset.coe_card, Bool.decide_eq_true]
  rw [hc, popcount, List.countP_eq_length_filter, ← List.map_coe_finRange_eq_range, List.filter_map, List.length_map]
  rfl

/-- 1 + 23 + 253 + 1771 = 2048. -/
theorem card_light_supports : (Finset.univ.filter (fun s : Finset (Fin 23) => s.card ≤ 3)).card = 2048 := by
  have h : Finset.univ.filter (fun s : Finset (Fin 23) => s.card ≤ 3) =
      (Finset.range 4).biUnion (fun i => Finset.powersetCard i Finset.univ) := by
    ext s
    simp [Finset.mem_powersetCard, Nat.lt_succ_iff]
  rw [h, Finset.card_biUnion]
  · simp [Finset.card_powersetCard, Finset.sum_range_succ]
    decide
  · intro i _ j _ hij
    rw [Function.onFun, Finset.disjoint_left]
    intro s hs ht
    rw [Finset.mem_powersetCard] at hs ht
    exact hij (hs.2.symm.trans ht.2)

/-- An injective choice of a pattern of weight at most 3 for every syndrome reaches every such pattern. -/
theorem light_reached {f : Syndrome → Pattern} (hf : Function.Injective f) (hl : ∀ x, popcount (f x) ≤ 3)
    {e : Pattern} (he : popcount e ≤ 3) : ∃ x, f x = e := by
  let g : Fin 2048 → Finset (Fin 23) := fun i => support (f (BitVec.ofFin i))
  have hg : Function.Injective g := fun i j h => congrArg BitVec.toFin (hf (support_injective h))
  have himg : Finset.univ.image g = Finset.univ.filter (fun s : Finset (Fin 23) => s.card ≤ 3) := by
    apply Finset.eq_of_subset_of_card_le
    · intro s hs
      obtain ⟨i, -, rfl⟩ := Finset.mem_image.mp hs
      rw [Finset.mem_filter]
      exact ⟨Finset.mem_univ _, (card_support _).trans_le (hl _)⟩
    · rw [card_light_supports, Finset.card_image_of_injective _ hg]
      simp
  have hmem : support e ∈ Finset.univ.image g := by
    rw [himg, Finset.mem_filter]
    exact ⟨Finset.mem_univ _, (card_support _).trans_le he⟩
  obtain ⟨i, -, hi⟩ := Finset.mem_image.mp hmem
  exact ⟨_, support_injective hi⟩

/-- A built EPL holds every pattern of weight at most 3 at its syndrome's slot (R52, R128). -/
theorem readEpl_syndrome {m : Memory} (h : TablesBuilt m) {e : Pattern} (he : popcount e ≤ 3) :
    m.readEpl (syndrome e) = e := by
  have hf : Function.Injective m.readEpl := fun x y hxy => by rw [← (h.2 x).1, ← (h.2 y).1, hxy]
  obtain ⟨x, rfl⟩ := light_reached hf (fun x => (h.2 x).2) he
  rw [(h.2 x).1]

/-- Two built memories are the same (R134). -/
theorem tablesBuilt_unique {m n : Memory} (hm : TablesBuilt m) (hn : TablesBuilt n) : m = n := by
  refine Memory.ext_read (fun d => (hm.1 d).trans (hn.1 d).symm) fun x => ?_
  have h := readEpl_syndrome hm (hn.2 x).2
  rwa [(hn.2 x).1] at h

end Sys2Proof.Machine
end

