-- ==== Sys2Proof/Laws/Exec.lean ====
section
/-! SUPPORT. What each command answers, and what a step can do. -/

namespace Sys2Proof.Machine

/-- INIT past its argument check, once its fill steps end (R132, R133). -/
theorem runInit_of_build {div : Pattern → Syndrome} {s : State} {b : Build} (h : buildTables div s.mem s.seq = some b) :
    runInit div s = respond (if covered b.seq.written then .ok else .initFail) 0 0
      { s with
        mem         := b.mem
        seq         := InitSeq.unspecified s.edge
        tablesValid := if covered b.seq.written then true else s.tablesValid } := by
  unfold runInit
  generalize buildTables div s.mem s.seq = o at h
  subst h
  rfl

/-- INIT with a legal argument (R133): it builds both tables, sets `tables_valid` and answers OK. -/
theorem execInit_legal (s : State) : ∃ m, TablesBuilt m ∧ execInit 0 s = .next
    { s with mem := m, seq := InitSeq.unspecified s.edge, tablesValid := true, rsp := ⟨0, 0, 0⟩, phase := .resp } := by
  obtain ⟨b, hb, hc, ht⟩ := buildTables_syndrome s.mem s.seq
  refine ⟨b.mem, ht, ?_⟩
  have h1 : execInit 0 s = runInit syndrome s := if_pos ((argLegal_initMask 0).mpr rfl)
  rw [h1, runInit_of_build hb, hc]
  rfl

/-- INIT with any other argument (R133). -/
theorem execInit_illegal {a : Arg} (h : a ≠ 0) (s : State) :
    execInit a s = .next (s.responded (errorResponse .invalidInput)) := by
  rw [execInit, if_neg (mt (argLegal_initMask a).mp h)]
  rfl

/-- Every command answers next: the block has no trap (R190) and its INIT never runs past the last combination. -/
theorem exec_next (i : Instr) (s : State) : ∃ t, exec i s = .next t := by
  cases i with
  | init a =>
    by_cases h : a = 0
    · obtain ⟨m, -, hm⟩ := execInit_legal s
      exact ⟨_, h ▸ hm⟩
    · exact ⟨_, execInit_illegal h s⟩
  | encode a => rw [exec, execEncode]; split_ifs <;> exact ⟨_, rfl⟩
  | decode a => rw [exec, execDecode]; split_ifs <;> exact ⟨_, rfl⟩
  | syndrome a => rw [exec, execSyndrome]; split_ifs <;> exact ⟨_, rfl⟩
  | rdSlt a => rw [exec, execRdSlt]; split_ifs <;> exact ⟨_, rfl⟩
  | rdEpl a => rw [exec, execRdEpl]; split_ifs <;> exact ⟨_, rfl⟩
  | reserved0 _ | reserved7 _ | reserved8 _ | reserved9 _ | reservedA _
  | reservedB _ | reservedC _ | reservedD _ | reservedE _ | reservedF _ => exact ⟨_, rfl⟩

/-- A command other than a legal INIT answers with a response and changes nothing else. -/
theorem exec_responded {i : Instr} (h : i ≠ .init 0) (s : State) : ∃ r, exec i s = .next (s.responded r) := by
  cases i with
  | init a => exact ⟨_, execInit_illegal (fun ha => h (ha ▸ rfl)) s⟩
  | encode a => rw [exec, execEncode]; split_ifs <;> exact ⟨_, rfl⟩
  | decode a => rw [exec, execDecode]; split_ifs <;> exact ⟨_, rfl⟩
  | syndrome a => rw [exec, execSyndrome]; split_ifs <;> exact ⟨_, rfl⟩
  | rdSlt a => rw [exec, execRdSlt]; split_ifs <;> exact ⟨_, rfl⟩
  | rdEpl a => rw [exec, execRdEpl]; split_ifs <;> exact ⟨_, rfl⟩
  | reserved0 _ | reserved7 _ | reserved8 _ | reserved9 _ | reservedA _
  | reservedB _ | reservedC _ | reservedD _ | reservedE _ | reservedF _ => exact ⟨_, rfl⟩

/-- The command that CMD holds is INIT with arg 0 exactly when CMD is a legal INIT. -/
theorem instr_eq_init_iff (c : Command) : c.instr = .init 0 ↔ c.isLegalInit = true := by
  have hf := decodeCommand_fields c.op c.arg
  rw [Command.isLegalInit, Bool.and_eq_true, beq_iff_eq, beq_iff_eq]
  constructor
  · intro h
    rw [Command.instr] at h
    rw [h] at hf
    exact ⟨hf.1.symm, hf.2.symm⟩
  · rintro ⟨ho, ha⟩
    rw [Command.instr, ho, ha]
    rfl

/-- What a step can do: RESET, or by the phase ACCEPT or nothing, COMPLETE or one more cycle, DELIVER or nothing
(R32). -/
theorem step_cases (s : State) :
    (s.inputs.rst = true ∧ step s = .next s.clocked.resetPulse) ∨
    (s.inputs.rst = false ∧ s.phase = .idle ∧
      step s = .next (if s.inputs.cmdValid then s.clocked.accept s.inputs.command else s.clocked)) ∨
    (s.inputs.rst = false ∧ s.phase = .busy ∧ s.busyLeft = 0 ∧ step s = exec s.cmd.instr s.clocked) ∨
    (s.inputs.rst = false ∧ s.phase = .busy ∧ s.busyLeft ≠ 0 ∧ step s = .next s.clocked.wait) ∨
    (s.inputs.rst = false ∧ s.phase = .resp ∧
      step s = .next (if s.inputs.rspReady then s.clocked.deliver else s.clocked)) := by
  cases hr : s.inputs.rst with
  | true => exact .inl ⟨rfl, by simp [step, transition, hr]⟩
  | false =>
    cases hp : s.phase with
    | idle => exact .inr (.inl ⟨rfl, rfl, by simp [step, transition, hr, hp, stepIdle]⟩)
    | busy =>
      by_cases hb : s.busyLeft = 0
      · exact .inr (.inr (.inl ⟨rfl, rfl, hb, by simp [step, transition, hr, hp, stepBusy, hb]⟩))
      · exact .inr (.inr (.inr (.inl ⟨rfl, rfl, hb, by simp [step, transition, hr, hp, stepBusy, hb]⟩)))
    | resp => exact .inr (.inr (.inr (.inr ⟨rfl, rfl, by simp [step, transition, hr, hp, stepResp]⟩)))

end Sys2Proof.Machine
end

