-- ==== Sys2Proof/Laws/PerInstr.lean ====
section
/-! SUPPORT. The family EncodedFields: what the command word of each command holds, row by row of
spec/opcode_table.json (spec/30_encoding.md R70, R73). -/

namespace Sys2Proof.Laws.EncodedFields

/-- The command word holds the command's opcode in bits 35:32 and its argument in bits 31:0, and a reserved opcode is
never well formed. -/
def Statement (i : Instr) : Prop :=
  opField (encode i) = i.opcode ∧ argField (encode i) = i.arg ∧ (i.isReserved = true → i.wellFormed = false)

theorem init (a : Arg) : Statement (.init a) := ⟨opField_append _ _, argField_append _ _, fun h => by cases h⟩
theorem encode (a : Arg) : Statement (.encode a) := ⟨opField_append _ _, argField_append _ _, fun h => by cases h⟩
theorem decode (a : Arg) : Statement (.decode a) := ⟨opField_append _ _, argField_append _ _, fun h => by cases h⟩
theorem syndrome (a : Arg) : Statement (.syndrome a) := ⟨opField_append _ _, argField_append _ _, fun h => by cases h⟩
theorem rdSlt (a : Arg) : Statement (.rdSlt a) := ⟨opField_append _ _, argField_append _ _, fun h => by cases h⟩
theorem rdEpl (a : Arg) : Statement (.rdEpl a) := ⟨opField_append _ _, argField_append _ _, fun h => by cases h⟩
theorem reserved0 (a : Arg) : Statement (.reserved0 a) := ⟨opField_append _ _, argField_append _ _, fun _ => rfl⟩
theorem reserved7 (a : Arg) : Statement (.reserved7 a) := ⟨opField_append _ _, argField_append _ _, fun _ => rfl⟩
theorem reserved8 (a : Arg) : Statement (.reserved8 a) := ⟨opField_append _ _, argField_append _ _, fun _ => rfl⟩
theorem reserved9 (a : Arg) : Statement (.reserved9 a) := ⟨opField_append _ _, argField_append _ _, fun _ => rfl⟩
theorem reservedA (a : Arg) : Statement (.reservedA a) := ⟨opField_append _ _, argField_append _ _, fun _ => rfl⟩
theorem reservedB (a : Arg) : Statement (.reservedB a) := ⟨opField_append _ _, argField_append _ _, fun _ => rfl⟩
theorem reservedC (a : Arg) : Statement (.reservedC a) := ⟨opField_append _ _, argField_append _ _, fun _ => rfl⟩
theorem reservedD (a : Arg) : Statement (.reservedD a) := ⟨opField_append _ _, argField_append _ _, fun _ => rfl⟩
theorem reservedE (a : Arg) : Statement (.reservedE a) := ⟨opField_append _ _, argField_append _ _, fun _ => rfl⟩
theorem reservedF (a : Arg) : Statement (.reservedF a) := ⟨opField_append _ _, argField_append _ _, fun _ => rfl⟩

end Sys2Proof.Laws.EncodedFields
end

