-- ==== Sys2Proof/Tests/Slice0.lean ====
section
/-! SUPPORT. Tests. Expected values come from spec/95_test_vectors.md (the section is named at each), from the corner
cases of the rules, or from an encoding written out from spec/30_encoding.md R70 and R73. The theorems named
test_witness_<Name> show that the hypotheses of the statement Obligations.<Name> are met together. -/

namespace Sys2Proof.Tests

open Sys2Proof.Machine

/-! Small states. -/

/-- Right after reset, with the given inputs at the next edge. -/
def withPins (p : HostPins) : State := { State.reset with pins := [p] }

/-- The host offers a command. -/
def offer (op : Op) (arg : Arg) : HostPins := ⟨false, true, op, arg, false⟩

/-- The host takes a response. -/
def take : HostPins := ⟨false, false, 0, 0, true⟩

/-- The host asserts reset. -/
def assertReset : HostPins := ⟨true, true, 1, 0, true⟩

/-- A command in BUSY. -/
def busyWith (op : Op) (arg : Arg) : State := { State.reset with phase := .busy, cmd := ⟨op, arg⟩ }

/-- A response held, `tables_valid = 0`: the error response to a reserved opcode. -/
def holding : State := { State.reset with phase := .resp, rsp := ⟨1, 0, 0⟩ }

/-- What the fill steps make of the memory of reset. -/
@[irreducible] def builtMem : Memory := ((buildTables syndrome State.reset.mem State.reset.seq).map (·.mem)).getD State.reset.mem

/-- In IDLE with valid tables. -/
def ready : State := { State.reset with tablesValid := true, mem := builtMem }

theorem builtMem_built : TablesBuilt builtMem := by
  obtain ⟨b, hb, -, ht⟩ := buildTables_syndrome State.reset.mem State.reset.seq
  unfold builtMem
  generalize buildTables syndrome State.reset.mem State.reset.seq = o at hb
  subst hb
  exact ht

theorem ready_inv : ready.Inv := ⟨fun _ => builtMem_built, fun h => (by cases h), fun h => (by cases h)⟩

/-- The status, data and count of the response an outcome holds. -/
def answer : Host.Outcome State Fault Refusal → Option (Nat × Nat × Nat)
  | .next t => some (t.rsp.status.toNat, t.rsp.data.toNat, t.rsp.count.toNat)
  | .fault _ => none
  | .refused _ => none

/-! Encodings, written out from R70 and R73: four bits of op, then 32 bits of arg. -/

theorem test_decode_init : decodeWord 0b000100000000000000000000000000000000#36 = .init 0x0 := by decide
theorem test_decode_encode : decodeWord 0b001000000000000000000000000000000001#36 = .encode 0x1 := by decide
theorem test_decode_decode : decodeWord 0b001100000000000000000000110001110100#36 = .decode 0xC74 := by decide
theorem test_decode_syndrome : decodeWord 0b010000000000000000000000100000000000#36 = .syndrome 0x800 := by decide
theorem test_decode_rdSlt : decodeWord 0b010100000000000000000000100000000000#36 = .rdSlt 0x800 := by decide
theorem test_decode_rdEpl : decodeWord 0b011000000000000000000000010001110101#36 = .rdEpl 0x475 := by decide
theorem test_decode_reserved0 : decodeWord 0b000000000000000000000000000000000000#36 = .reserved0 0x0 := by decide
theorem test_decode_reserved7 : decodeWord 0b011100000000000000000000000000000000#36 = .reserved7 0x0 := by decide
theorem test_decode_reserved8 : decodeWord 0b100000000000000000000000000000000000#36 = .reserved8 0x0 := by decide
theorem test_decode_reserved9 : decodeWord 0b100100000000000000000001000000000000#36 = .reserved9 0x1000 := by decide
theorem test_decode_reservedA : decodeWord 0b101000000000000000000000000000000000#36 = .reservedA 0x0 := by decide
theorem test_decode_reservedB : decodeWord 0b101100000000000000000000000000000000#36 = .reservedB 0x0 := by decide
theorem test_decode_reservedC : decodeWord 0b110000000000000000000000000000000000#36 = .reservedC 0x0 := by decide
theorem test_decode_reservedD : decodeWord 0b110100000000000000000000000000000000#36 = .reservedD 0x0 := by decide
theorem test_decode_reservedE : decodeWord 0b111000000000000000000000000000000000#36 = .reservedE 0x0 := by decide
theorem test_decode_reservedF : decodeWord 0b111111111111111111111111111111111111#36 = .reservedF 0xFFFFFFFF := by decide

theorem test_decode_too_wide : decodeBits 0x1000000000 = .error .widerThanCommandWord := by decide
theorem test_encode_word : encode (.encode 1) = 0x200000001#36 := by decide

/-! WellFormed: each check refuses an ill-formed command (R75, R76), and passes the last legal one. -/

theorem test_illFormed_init : Instr.wellFormed (.init 0x1) = false ∧ Instr.wellFormed (.init 0x0) = true := by decide
theorem test_illFormed_encode : Instr.wellFormed (.encode 0x1000) = false ∧ Instr.wellFormed (.encode 0xFFF) = true := by decide
theorem test_illFormed_decode : Instr.wellFormed (.decode 0x800000) = false ∧ Instr.wellFormed (.decode 0x7FFFFF) = true := by decide
theorem test_illFormed_syndrome : Instr.wellFormed (.syndrome 0x800000) = false ∧ Instr.wellFormed (.syndrome 0x7FFFFF) = true := by decide
theorem test_illFormed_rdSlt : Instr.wellFormed (.rdSlt 0x1000) = false ∧ Instr.wellFormed (.rdSlt 0xFFF) = true := by decide
theorem test_illFormed_rdEpl : Instr.wellFormed (.rdEpl 0x800) = false ∧ Instr.wellFormed (.rdEpl 0x7FF) = true := by decide
theorem test_illFormed_reserved0 : Instr.wellFormed (.reserved0 0) = false := by decide
theorem test_illFormed_reserved7 : Instr.wellFormed (.reserved7 0) = false := by decide
theorem test_illFormed_reserved8 : Instr.wellFormed (.reserved8 0) = false := by decide
theorem test_illFormed_reserved9 : Instr.wellFormed (.reserved9 0) = false := by decide
theorem test_illFormed_reservedA : Instr.wellFormed (.reservedA 0) = false := by decide
theorem test_illFormed_reservedB : Instr.wellFormed (.reservedB 0) = false := by decide
theorem test_illFormed_reservedC : Instr.wellFormed (.reservedC 0) = false := by decide
theorem test_illFormed_reservedD : Instr.wellFormed (.reservedD 0) = false := by decide
theorem test_illFormed_reservedE : Instr.wellFormed (.reservedE 0) = false := by decide
theorem test_illFormed_reservedF : Instr.wellFormed (.reservedF 0) = false := by decide

/-! The divider (95_test_vectors.md 2.2, 2.6, 3.1). -/

theorem test_syndrome_bits : (List.range 23).map (fun k => (syndrome (1#23 <<< k)).toNat) =
    [0x001, 0x002, 0x004, 0x008, 0x010, 0x020, 0x040, 0x080, 0x100, 0x200, 0x400, 0x475, 0x49F, 0x54B, 0x6E3, 0x1B3,
      0x366, 0x6CC, 0x1ED, 0x3DA, 0x7B4, 0x31D, 0x63A] := by decide +kernel
theorem test_divider_trace : divideWithin 7 0x400000 markerStart = some 0x63A ∧
    divideWithin 6 0x400000 markerStart = none := by decide +kernel
theorem test_divider_twelve : divideWithin 12 0x42C800 markerStart = some (syndrome 0x42C800) ∧
    divideWithin 11 0x42C800 markerStart = none := by decide +kernel
theorem test_syndrome_three_flips : answer (exec (.syndrome 0x700C75) State.reset) = some (0, 0x293, 0) := by decide +kernel
theorem test_syndrome_out_of_range : answer (exec (.syndrome 0x800000) State.reset) = some (2, 0, 0) := by decide +kernel

/-! The enumerator (95_test_vectors.md 3.7). -/

theorem test_next_pair : nextCombination 23 2 [1, 2] = some [1, 3] ∧ nextCombination 23 2 [1, 23] = some [2, 3] ∧
    nextCombination 23 2 [21, 23] = some [22, 23] ∧ nextCombination 23 2 [22, 23] = none := by decide
theorem test_next_triple : nextCombination 23 3 [1, 2, 23] = some [1, 3, 4] ∧
    nextCombination 23 3 [1, 22, 23] = some [2, 3, 4] ∧ nextCombination 23 3 [20, 22, 23] = some [21, 22, 23] ∧
    nextCombination 23 3 [21, 22, 23] = none := by decide
theorem test_toBitvector : toBitvector [21, 22, 23] = 0x700000 ∧ toBitvector [1, 3, 4] = 0x00000D := by decide

/-! INIT (95_test_vectors.md 2.3, 2.4, 3.5). -/

theorem test_codewords : [0x001, 0x555, 0xAAA, 0x800, 0xFFF].map (fun d => (codeword (BitVec.ofNat 12 d)).toNat) =
    [0x000C75, 0x2AAE86, 0x555179, 0x40063A, 0x7FFFFF] := by decide +kernel
theorem test_init_rejects_arg : answer (exec (.init 1) State.reset) = some (2, 0, 0) := by decide +kernel
theorem test_init_ok : answer (exec (.init 0) State.reset) = some (0, 0, 0) := by
  obtain ⟨m, -, hm⟩ := execInit_legal State.reset
  rw [show exec (.init 0) State.reset = _ from hm]
  rfl

/-- What RD_EPL and DECODE find in the built EPL at the syndrome of a pattern of weight at most 3. -/
theorem builtMem_epl {e : Pattern} {x : Syndrome} (hx : syndrome e = x) (he : popcount e ≤ 3) : builtMem.readEpl x = e :=
  hx ▸ readEpl_syndrome builtMem_built he

theorem test_epl_entries : builtMem.readEpl 0x00F = 0x024020 ∧ builtMem.readEpl 0x7FF = 0x028080 ∧
    builtMem.readEpl 0x475 = 0x000800 ∧ builtMem.readEpl 0x123 = 0x008090 :=
  ⟨builtMem_epl (by decide +kernel) (by decide +kernel), builtMem_epl (by decide +kernel) (by decide +kernel),
    builtMem_epl (by decide +kernel) (by decide +kernel), builtMem_epl (by decide +kernel) (by decide +kernel)⟩

/-! ENCODE, DECODE and the table reads (95_test_vectors.md 3.2 to 3.4, 3.6). -/

theorem test_encode_555 : answer (exec (.encode 0x555) ready) = some (0, 0x2AAE86, 0) := by
  have h : builtMem.readSlt 0x555 = 0x2AAE86 := (builtMem_built.1 _).trans (by decide +kernel)
  rw [show exec (.encode 0x555) ready = respond .ok ((builtMem.readSlt 0x555).setWidth 32) 0 ready from rfl, h]
  rfl
theorem test_encode_early : answer (exec (.encode 1) State.reset) = some (3, 0, 0) ∧
    answer (exec (.encode 0x1000) State.reset) = some (2, 0, 0) := by decide +kernel
theorem test_decode_three_errors : answer (exec (.decode 0x545078) ready) = some (0, 0xAAA, 3) := by
  have h : builtMem.readEpl (syndrome 0x545078) = 0x010101 := builtMem_epl (by decide +kernel) (by decide +kernel)
  rw [show exec (.decode 0x545078) ready = respond .ok (((0x545078 ^^^ builtMem.readEpl (syndrome 0x545078)) >>> 11).setWidth 32)
    (BitVec.ofNat 2 (popcount (builtMem.readEpl (syndrome 0x545078)))) ready from rfl, h]
  decide +kernel
theorem test_decode_four_errors : answer (exec (.decode 0xF) ready) = some (0, 0x048, 3) := by
  have h : builtMem.readEpl (syndrome 0xF) = 0x024020 := builtMem_epl (by decide +kernel) (by decide +kernel)
  rw [show exec (.decode 0xF) ready = respond .ok (((0xF ^^^ builtMem.readEpl (syndrome 0xF)) >>> 11).setWidth 32)
    (BitVec.ofNat 2 (popcount (builtMem.readEpl (syndrome 0xF)))) ready from rfl, h]
  decide +kernel
theorem test_rdSlt_800 : answer (exec (.rdSlt 0x800) ready) = some (0, 0x40063A, 0) := by
  have h : builtMem.readSlt 0x800 = 0x40063A := (builtMem_built.1 _).trans (by decide +kernel)
  rw [show exec (.rdSlt 0x800) ready = respond .ok ((builtMem.readSlt 0x800).setWidth 32) 0 ready from rfl, h]
  rfl
theorem test_rdSlt_early : answer (exec (.rdSlt 0) State.reset) = some (3, 0, 0) := by decide +kernel
theorem test_rdEpl_7FF : answer (exec (.rdEpl 0x7FF) ready) = some (0, 0x028080, 0) := by
  rw [show exec (.rdEpl 0x7FF) ready = respond .ok ((builtMem.readEpl 0x7FF).setWidth 32) 0 ready from rfl,
    test_epl_entries.2.1]
  rfl
theorem test_rdEpl_out_of_range : answer (exec (.rdEpl 0x800) State.reset) = some (2, 0, 0) := by decide +kernel
theorem test_reserved : answer (exec (.reserved9 0x1000) State.reset) = some (1, 0, 0) ∧
    answer (exec (.reserved0 0) ready) = some (1, 0, 0) := ⟨rfl, rfl⟩

/-! The transitions of the port (10_state.md R32 to R35, 70_reset_and_hazards.md R210). -/

/-- A field of the state a step leads to. -/
def after {α : Type} (f : State → α) (s : State) : Option α :=
  match step s with
  | .next t => some (f t)
  | .fault _ => none
  | .refused _ => none

theorem test_accept : after (fun t => (t.phase, t.cmd)) (withPins (offer 2 1)) = some (.busy, ⟨2, 1⟩) := by decide +kernel
theorem test_accept_init_clears :
    after (·.tablesValid) { ready with pins := [offer 1 0] } = some false ∧
    after (·.tablesValid) { ready with pins := [offer 1 1] } = some true := ⟨rfl, rfl⟩
theorem test_deliver : after (fun t => (t.phase, t.delivered)) { holding with pins := [take] } =
    some (.idle, [⟨1, 0, 0⟩]) := by decide +kernel
theorem test_offer_waits_in_resp : after (fun t => (t.phase, t.cmd, t.rsp)) { holding with pins := [offer 2 1] } =
    some (.resp, ⟨0, 0⟩, ⟨1, 0, 0⟩) := by decide +kernel
theorem test_latency_counts : after (fun t => (t.phase, t.busyLeft)) { busyWith 4 0x800 with busyLeft := 2 } =
    some (.busy, 1) := by decide +kernel
theorem test_complete : after (fun t => (t.phase, t.rsp)) (busyWith 4 0x800) = some (.resp, ⟨0, 0x475, 0⟩) := by
  decide +kernel
theorem test_reset_abandons : after (fun t => (t.phase, t.tablesValid, t.delivered))
    { busyWith 4 0x800 with pins := [assertReset] } = some (.idle, false, []) := rfl
theorem test_fetch_word : after (fun t => (t.phase, t.rsp)) (State.reset.withFetchWord 40 0x400000800) =
    some (.resp, ⟨0, 0x475, 0⟩) := by decide +kernel

/-! Text (30_encoding.md R78). -/

theorem test_assemble_encode : assembleLine ['E', 'N', 'C', 'O', 'D', 'E', ' ', '0', 'x', '1', ' ', '/', '/', 'x'] =
    .ok (.encode 1) := by decide +kernel
theorem test_assemble_word : assembleLine ['.', 'w', 'o', 'r', 'd', ' ', '0', 'x', '9', '_', '0', '0', '0', '0', '1', '0',
    '0', '0'] = .ok (.reserved9 0x1000) := by decide +kernel
theorem test_assemble_init_operand : assembleLine ['I', 'N', 'I', 'T', ' ', '1'] = .error .extraOperand := by decide +kernel

/-! Witnesses: concrete states and operands that meet the hypotheses of the statements. -/

theorem test_witness_StepCompletesDecodedCommand :
    (busyWith 4 0x800).phase = .busy ∧ (busyWith 4 0x800).inputs.rst = false ∧ (busyWith 4 0x800).busyLeft = 0 ∧
    decodeCommand (busyWith 4 0x800).cmd.op (busyWith 4 0x800).cmd.arg ≠ .init 0 ∧
    { busyWith 4 0x800 with busyLeft := 1 }.busyLeft ≠ 0 :=
  by decide +kernel
theorem test_witness_OpcodeTableWordsDecode :
    2 ^ 36 ≤ 0x1000000000 ∧ 0x1000000000 < 2 ^ 40 :=
  by decide
theorem test_witness_FetchWordRunsNext :
    decodeTableWord 40 0x200000001 = some (.encode 1) :=
  by decide
theorem test_witness_AcceptTakesTheOfferedCommand :
    (withPins (offer 1 0)).phase = .idle ∧ (withPins (offer 1 0)).inputs.rst = false ∧
    (withPins (offer 1 0)).inputs.cmdValid = true :=
  by decide +kernel
theorem test_witness_DeliverHandsRspToTheHost :
    { holding with pins := [take] }.phase = .resp ∧ { holding with pins := [take] }.inputs.rst = false ∧
    { holding with pins := [take] }.inputs.rspReady = true ∧ holding.phase = .resp ∧ holding.inputs.rst = false ∧
    holding.inputs.rspReady = false :=
  by decide +kernel
theorem test_witness_IdleWaitsForTheHost :
    State.reset.phase = .idle ∧ State.reset.inputs.rst = false ∧ State.reset.inputs.cmdValid = false :=
  by decide +kernel
theorem test_witness_ResetFromAnyPhase :
    (withPins assertReset).inputs.rst = true ∧ { busyWith 1 0 with pins := [assertReset] }.inputs.rst = true ∧
    { holding with pins := [assertReset] }.inputs.rst = true :=
  ⟨rfl, rfl, rfl⟩
theorem test_witness_OutputsFollowTheState :
    holding.outputs.rspValid = true :=
  rfl
theorem test_witness_OneResponsePerAcceptedCommand :
    ∃ t, (withPins (offer 2 1)).inputs.rst = false ∧ step (withPins (offer 2 1)) = .next t :=
  ⟨_, rfl, rfl⟩
theorem test_witness_CommandCompletesWithinItsLatency :
    { busyWith 4 0x800 with busyLeft := 2 }.Inv ∧ { busyWith 4 0x800 with busyLeft := 2 }.phase = .busy ∧
    { busyWith 4 0x800 with busyLeft := 2 }.noResetFor 3 :=
  ⟨⟨fun h => (by cases h), fun _ h => (by cases h), fun h => (by cases h)⟩, rfl, fun p hp => (by cases hp)⟩
theorem test_witness_InitTransactionMakesTablesValid :
    let s := { withPins (offer 1 0) with latencies := [3] }
    s.phase = .idle ∧ s.inputs.cmdValid = true ∧ s.inputs.cmdOp = 0x1 ∧ s.inputs.cmdArg = 0 ∧
      s.noResetFor (s.latencies.headD 0 + 2) :=
  ⟨rfl, rfl, rfl, rfl, fun p hp => by
    obtain rfl : p = offer 1 0 := List.mem_singleton.mp hp
    rfl⟩
theorem test_witness_StepKeepsTheInvariant :
    ∃ t, ready.Inv ∧ step ready = .next t :=
  ⟨_, ready_inv, rfl⟩
theorem test_witness_UnspecifiedValuesNeverShow :
    (∃ s t : State, s ≠ t ∧ s.SameSpecified t ∧ ∃ s' t', step s = .next s' ∧ step t = .next t') ∧
    ∃ s t : State, s.inputs.rst = true ∧ step s = .next t :=
  by
  refine ⟨⟨State.reset, { State.reset with cmd := ⟨4, 7⟩ }, by decide +kernel, ?_, _, _, rfl, rfl⟩, withPins assertReset, _, rfl, rfl⟩
  exact ⟨rfl, rfl, fun h => absurd rfl h, fun h => (by cases h), fun _ => rfl, rfl, rfl, rfl, fun h => (by cases h)⟩
theorem test_witness_TablesValidChangesOnlyByInit :
    (withPins assertReset).inputs.rst = true ∧
    ((withPins (offer 1 0)).inputs.rst = false ∧ (withPins (offer 1 0)).accepts = true ∧
      (withPins (offer 1 0)).inputs.command.isLegalInit = true) ∧
    (busyWith 1 0).completesInit = true ∧
    ((withPins (offer 1 1)).inputs.rst = false ∧ (withPins (offer 1 1)).inputs.command.isLegalInit = false ∧
      (withPins (offer 1 1)).completesInit = false) ∧
    State.reset.tablesValid = false ∧ Instr.wellFormed (.rdEpl 0x7FF) = true ∧ Instr.opcode (.rdEpl 0x7FF) = 0x6 :=
  by decide +kernel
theorem test_witness_TablesWrittenOnlyByInit :
    (∃ t, (busyWith 2 1).inputs.rst = false ∧ step (busyWith 2 1) = .next t ∧
      ¬((busyWith 2 1).phase = .busy ∧ (busyWith 2 1).cmd.isLegalInit = true)) ∧
    ∃ t, { busyWith 1 0 with busyLeft := 1 }.inputs.rst = false ∧ step { busyWith 1 0 with busyLeft := 1 } = .next t ∧
      { busyWith 1 0 with busyLeft := 1 }.phase = .busy ∧ (busyWith 1 0).cmd.isLegalInit = true ∧
      { busyWith 1 0 with busyLeft := 1 }.busyLeft ≠ 0 :=
  ⟨⟨_, rfl, rfl, by decide +kernel⟩, _, rfl, rfl, rfl, rfl, by decide +kernel⟩
theorem test_witness_SyndromeResult :
    (0x7FFFFF : Arg).toNat ≤ 0x7FFFFF ∧ 0x7FFFFF < (0x800000 : Arg).toNat ∧ (0x7FF : Arg).toNat < 0x800 :=
  by decide
theorem test_witness_DividerLoopComputesSyndrome :
    (0x7FF : Pattern).toNat < 2 ^ 11 :=
  by decide
theorem test_witness_DividerLoopNeverEndsAbove23Bits :
    2 ^ 23 ≤ (0x800000 : Arg).toNat :=
  by decide
theorem test_witness_SyndromeIsLinear :
    (0x7FF : Pattern).toNat < 2 ^ 11 ∧ syndrome 0x7FFFFF = 0 ∧ timesG 1 = 0x000C75 :=
  by decide +kernel
theorem test_witness_BitvectorSetsExactlyThePositions :
    IsCombination 23 3 [1, 22, 23] ∧ 22 + 1 ∈ [1, 22, 23] :=
  by decide
theorem test_witness_NextCombinationIsTheSuccessor :
    1 ≤ 3 ∧ IsCombination 23 3 [1, 22, 23] ∧ [1, 22, 23] ≠ lastCombination 23 3 ∧
    [21, 22, 23] = lastCombination 23 3 ∧ IsCombination 23 3 [21, 22, 23] ∧ IsCombination 23 3 [2, 3, 5] ∧ [1, 22, 23] < [2, 3, 5] :=
  by decide
theorem test_witness_EnumerationReachesEveryCombinationOnce :
    1 ≤ 2 ∧ 2 ≤ 4 ∧ 5 < Nat.choose 4 2 ∧ IsCombination 4 2 [3, 4] ∧ 0 < 1 ∧ combinationAfter 4 2 0 = some [1, 2] ∧
    combinationAfter 4 2 1 = some [1, 3] :=
  by decide
theorem test_witness_InitBuildsBothTables :
    (0 : Arg) = 0 ∧ (1 : Arg) ≠ 0 :=
  by decide
theorem test_witness_EplHoldsEveryPatternOfWeightAtMostThree :
    (∃ t, exec (.init 0) State.reset = .next t) ∧ popcount (0x700000 : Pattern) ≤ 3 :=
  ⟨exec_next _ _, by decide⟩
theorem test_witness_CoverageDecidesTheInitStatus :
    (∃ b, buildTables syndrome State.reset.mem State.reset.seq = some b ∧ ∀ i, i < 2048 → b.seq.written.getLsbD i = true) ∧
    ∃ b, buildTables (fun _ => 0) State.reset.mem State.reset.seq = some b ∧ ∃ i, i < 2048 ∧ b.seq.written.getLsbD i = false :=
  by
  obtain ⟨b, hb, hc, -⟩ := buildTables_syndrome State.reset.mem State.reset.seq
  refine ⟨⟨b, hb, (covered_iff _).mp hc⟩, ?_⟩
  obtain ⟨b, hb, -, hp, -⟩ := buildTables_spec (fun _ => 0) State.reset.mem State.reset.seq
  refine ⟨b, hb, 1, by decide, ?_⟩
  by_contra h
  have h1 := (hp 1 (Bool.not_eq_false _ ▸ h)).1
  rw [slotOf] at h1
  split at h1 <;> exact absurd h1 (by decide)
theorem test_witness_CoverageHoldsExactlyWithoutCollision :
    (∃ b, buildTables syndrome State.reset.mem State.reset.seq = some b) ∧
    popcount (0x700000 : Pattern) ≤ 3 ∧ slotOf syndrome 0x700000 = slotOf syndrome 0x700000 :=
  by
  obtain ⟨b, hb, -, -⟩ := buildTables_syndrome State.reset.mem State.reset.seq
  exact ⟨⟨b, hb⟩, by decide, rfl⟩
theorem test_witness_ReinitialisationRebuildsTheSameTables :
    ∃ t t', exec (.init 0) State.reset = .next t ∧ exec (.init 0) ready = .next t' :=
  by
  obtain ⟨t, ht⟩ := exec_next (.init 0) State.reset
  obtain ⟨t', ht'⟩ := exec_next (.init 0) ready
  exact ⟨t, t', ht, ht'⟩
theorem test_witness_ValidTablesMeetTheInvariants :
    ready.Inv ∧ ready.tablesValid = true :=
  ⟨ready_inv, rfl⟩
theorem test_witness_SltIsTheSumOfItsRows :
    ready.Inv ∧ ready.tablesValid = true :=
  ⟨ready_inv, rfl⟩
theorem test_witness_EncodeGivesTheLinearCode :
    ready.Inv ∧ ready.tablesValid = true :=
  ⟨ready_inv, rfl⟩
theorem test_witness_DecodeFindsTheNearestCodeword :
    ready.Inv ∧ ready.tablesValid = true :=
  ⟨ready_inv, rfl⟩
theorem test_witness_TableWritesAreOneWholeEntry :
    (0xFFF : DataWord) ≠ 0 ∧ (0x7FF : Syndrome) ≠ 0 :=
  by decide
theorem test_witness_EncodeResult :
    0xFFF < (0x1000 : Arg).toNat ∧ (0xFFF : Arg).toNat ≤ 0xFFF ∧ State.reset.tablesValid = false ∧ ready.tablesValid = true ∧ ready.Inv :=
  ⟨by decide, by decide, rfl, rfl, ready_inv⟩
theorem test_witness_DecodeResult :
    0x7FFFFF < (0x800000 : Arg).toNat ∧ (0x7FFFFF : Arg).toNat ≤ 0x7FFFFF ∧ State.reset.tablesValid = false ∧ ready.tablesValid = true ∧
    ready.Inv ∧ (0x700 : Arg).toNat < 0x800 ∧ popcount (0x700 : Arg) ≤ 3 :=
  ⟨by decide, by decide, rfl, rfl, ready_inv, by decide, by decide⟩
theorem test_witness_DecodeCorrectsUpToThreeErrors :
    ready.Inv ∧ ready.tablesValid = true ∧ popcount (0x700000 : Pattern) ≤ 3 :=
  ⟨ready_inv, rfl, by decide⟩
theorem test_witness_ReencodeGivesBackThePattern :
    ready.Inv ∧ ready.tablesValid = true ∧ ∃ t, exec (.decode ((0xF : Pattern).setWidth 32)) ready = .next t :=
  ⟨ready_inv, rfl, exec_next _ _⟩
theorem test_witness_RdSltResult :
    0xFFF < (0x1000 : Arg).toNat ∧ (0xFFF : Arg).toNat ≤ 0xFFF ∧ State.reset.tablesValid = false ∧ ready.tablesValid = true ∧ ready.Inv :=
  ⟨by decide, by decide, rfl, rfl, ready_inv⟩
theorem test_witness_RdEplResult :
    0x7FF < (0x800 : Arg).toNat ∧ (0x7FF : Arg).toNat ≤ 0x7FF ∧ State.reset.tablesValid = false ∧ ready.tablesValid = true ∧ ready.Inv :=
  ⟨by decide, by decide, rfl, rfl, ready_inv⟩
theorem test_witness_EplTotalityAsTheHostChecksIt :
    ready.Inv ∧ ready.tablesValid = true ∧ ∃ t, Instr.decode 0xF ≠ .init 0 ∧ exec (.decode 0xF) ready = .next t :=
  by
  obtain ⟨t, ht⟩ := exec_next (.decode 0xF) ready
  exact ⟨ready_inv, rfl, t, by decide, ht⟩
theorem test_witness_ReservedOpcodesAreIllegal :
    (0x0 : Op) = 0x0 ∧ 7 ≤ (0x7 : Op).toNat ∧ 7 ≤ (0xF : Op).toNat :=
  by decide
theorem test_witness_ArgumentRangesAreTheLegalMasks :
    ∃ t u v w x y, exec (.init 1) ready = .next t ∧ exec (.encode 0x1000) ready = .next u ∧ exec (.decode 0x7FFFFF) ready = .next v ∧
    exec (.syndrome 0x800000) ready = .next w ∧ exec (.rdSlt 0xFFF) ready = .next x ∧ exec (.rdEpl 0x800) ready = .next y :=
  by
  obtain ⟨t, ht⟩ := exec_next (.init 1) ready
  obtain ⟨u, hu⟩ := exec_next (.encode 0x1000) ready
  obtain ⟨v, hv⟩ := exec_next (.decode 0x7FFFFF) ready
  obtain ⟨w, hw⟩ := exec_next (.syndrome 0x800000) ready
  obtain ⟨x, hx⟩ := exec_next (.rdSlt 0xFFF) ready
  obtain ⟨y, hy⟩ := exec_next (.rdEpl 0x800) ready
  exact ⟨t, u, v, w, x, y, ht, hu, hv, hw, hx, hy⟩
theorem test_witness_UninitGuardsTheTableCommands :
    State.reset.tablesValid = false ∧ (0xFFF : Arg).toNat ≤ 0xFFF ∧ (0x7FFFFF : Arg).toNat ≤ 0x7FFFFF ∧ (0x7FF : Arg).toNat ≤ 0x7FF ∧
    ∃ t, exec (.syndrome 0) State.reset = .next t :=
  ⟨rfl, by decide, by decide, by decide, exec_next _ _⟩
theorem test_witness_StatusPriority :
    (∃ t, exec (.reserved9 0x1000) State.reset = .next t ∧ Instr.isReserved (.reserved9 0x1000) = true) ∧
    (Instr.isReserved (.encode 0x1000) = false ∧ Instr.wellFormed (.encode 0x1000) = false) ∧
    (Instr.wellFormed (.encode 0xFFF) = true ∧ State.reset.tablesValid = false ∧ Instr.opcode (.encode 0xFFF) = 0x2) ∧
    (Instr.wellFormed (.syndrome 0x7FFFFF) = true ∧ Instr.opcode (.syndrome 0x7FFFFF) = 0x4) ∧
    ∃ b, buildTables (fun _ => 0) State.reset.mem State.reset.seq = some b :=
  by
  obtain ⟨b, hb, -⟩ := buildTables_spec (fun _ => 0) State.reset.mem State.reset.seq
  exact ⟨⟨_, rfl, rfl⟩, ⟨rfl, by decide⟩, ⟨by decide, rfl, rfl⟩, ⟨by decide, rfl⟩, b, hb⟩
theorem test_witness_ErrorsWriteOnlyTheResponse :
    (∃ t, exec (.encode 1) State.reset = .next t ∧ t.rsp.status ≠ 0) ∧
    (∃ b, buildTables (fun _ => 0) State.reset.mem State.reset.seq = some b ∧ covered b.seq.written = false) ∧
    ∃ t, (withPins (offer 1 1)).accepts = true ∧ (withPins (offer 1 1)).inputs.cmdOp = 0x1 ∧
      (withPins (offer 1 1)).inputs.cmdArg ≠ 0 ∧ step (withPins (offer 1 1)) = .next t :=
  by
  refine ⟨⟨_, rfl, by decide⟩, ?_, _, rfl, rfl, by decide, rfl⟩
  obtain ⟨b, hb, i, hi, hw⟩ := test_witness_CoverageDecidesTheInitStatus.2
  refine ⟨b, hb, ?_⟩
  by_contra h
  rw [(covered_iff _).mp (by simpa using h) i hi] at hw
  cases hw
theorem test_witness_StatusCodesOfTheBlock :
    (∃ t, exec (.syndrome 0x7FFFFF) State.reset = .next t) ∧ Instr.opcode (.syndrome 0x7FFFFF) ≠ 0x3 ∧ 5 ≤ (5 : BitVec 3).toNat :=
  ⟨exec_next _ _, by decide, by decide⟩
theorem test_witness_ErrorsAreNotSticky :
    ∃ t, exec (.encode 1) holding = .next t :=
  exec_next _ _
theorem test_witness_CommandsOtherThanInitWriteOnlyTheResponse :
    ∃ t, Instr.decode 0xF ≠ .init 0 ∧ exec (.decode 0xF) ready = .next t :=
  by
  obtain ⟨t, ht⟩ := exec_next (.decode 0xF) ready
  exact ⟨t, by decide, ht⟩
theorem test_witness_InitFrame :
    ∃ t, exec (.init 0) State.reset = .next t :=
  exec_next _ _
theorem test_witness_AssembledOperandIsUnchanged :
    IsLiteral ['4', '2'] 42 ∧ 42 < 2 ^ 32 ∧ IsLiteral ['0', 'x', '7', 'f', 'F'] 0x7FF ∧
    IsLiteral ['4', '2', '9', '4', '9', '6', '7', '2', '9', '6'] 4294967296 ∧ 2 ^ 32 ≤ 4294967296 ∧
    IsWord ['x', '1'] ∧ ∀ n, ¬IsLiteral ['x', '1'] n :=
  ⟨.inl ⟨[4, 2], by simp, by simp [SpellsDigit], rfl⟩, by decide,
    .inr ⟨_, rfl, [7, 15, 15], by simp, by simp [SpellsDigit]; decide, rfl⟩,
    .inl ⟨[4, 2, 9, 4, 9, 6, 7, 2, 9, 6], by simp, by simp [SpellsDigit], rfl⟩, by decide, ⟨by simp, by simp⟩,
    fun n h => by rw [← literalValue_eq_some, show literalValue ['x', '1'] = none by decide +kernel] at h; cases h⟩
theorem test_witness_AssembledWordFormAndComment :
    IsNumeral 16 ['9'] 9 ∧ IsNumeral 16 ['0', '0', '0', '0', '1', '0', '0', '0'] 0x1000 ∧
    ['0', '0', '0', '0', '1', '0', '0', '0'].length = 8 ∧ '/' ∉ ['I', 'N', 'I', 'T'] :=
  ⟨⟨[9], by simp, by simp [SpellsDigit], rfl⟩, ⟨[0, 0, 0, 0, 1, 0, 0, 0], by simp, by simp [SpellsDigit], rfl⟩, rfl, by simp⟩
theorem test_witness_AssemblerRefusesOtherLines :
    IsWord ['1'] ∧ IsWord ['N', 'O', 'P'] ∧ ['N', 'O', 'P'] ∉ [['I', 'N', 'I', 'T'], ['E', 'N', 'C', 'O', 'D', 'E'], ['D', 'E', 'C', 'O', 'D', 'E'],
      ['S', 'Y', 'N', 'D', 'R', 'O', 'M', 'E'], ['R', 'D', '_', 'S', 'L', 'T'], ['R', 'D', '_', 'E', 'P', 'L'], ['.', 'w', 'o', 'r', 'd']] ∧
    ∀ c ∈ [' ', '\t'], c = ' ' ∨ c = '\t' :=
  ⟨⟨by simp, by simp⟩, ⟨by simp, by simp⟩, by simp, by simp⟩

end Sys2Proof.Tests
end

section
/-! SUPPORT. One equation per transition of the port (spec/10_state.md R32 to R35, spec/70_reset_and_hazards.md R210),
the fields of a state in which a command is completed, and the two ways a COMPLETE can end. -/

namespace Sys2Proof.Machine

/-! The transitions at one clock edge. -/

theorem step_reset {s : State} (hr : s.inputs.rst = true) : step s = .next s.clocked.resetPulse := by
  simp [step, transition, hr]

theorem step_accept {s : State} (hr : s.inputs.rst = false) (hp : s.phase = .idle) (hv : s.inputs.cmdValid = true) :
    step s = .next (s.clocked.accept s.inputs.command) := by
  simp [step, transition, hr, hp, stepIdle, hv]

theorem step_idle {s : State} (hr : s.inputs.rst = false) (hp : s.phase = .idle) (hv : s.inputs.cmdValid = false) :
    step s = .next s.clocked := by
  simp [step, transition, hr, hp, stepIdle, hv]

theorem step_complete {s : State} (hr : s.inputs.rst = false) (hp : s.phase = .busy) (hb : s.busyLeft = 0) :
    step s = exec s.cmd.instr s.clocked := by
  simp [step, transition, hr, hp, stepBusy, hb]

theorem step_wait {s : State} (hr : s.inputs.rst = false) (hp : s.phase = .busy) (hb : s.busyLeft ≠ 0) :
    step s = .next s.clocked.wait := by
  simp [step, transition, hr, hp, stepBusy, hb]

theorem step_deliver {s : State} (hr : s.inputs.rst = false) (hp : s.phase = .resp) (hv : s.inputs.rspReady = true) :
    step s = .next s.clocked.deliver := by
  simp [step, transition, hr, hp, stepResp, hv]

theorem step_hold {s : State} (hr : s.inputs.rst = false) (hp : s.phase = .resp) (hv : s.inputs.rspReady = false) :
    step s = .next s.clocked := by
  simp [step, transition, hr, hp, stepResp, hv]

/-! A run of `k + 1` steps is a step and a run of `k`. -/

theorem core_run_succ {s t : State} (h : step s = .next t) (k : Nat) : core.run (k + 1) s = core.run k t := by
  have h' : core.step s = .next t := h
  simp only [Host.Core.run, h']

theorem core_run_one {s t : State} (h : step s = .next t) : core.run 1 s = .next t := core_run_succ h 0

/-! `tables_valid` at ACCEPT (R23, R33). -/

theorem tablesValidAtAccept_legalInit {c : Command} (h : c.isLegalInit = true) (tv : Bool) :
    tablesValidAtAccept c tv = false := by
  simp [tablesValidAtAccept, h]

theorem tablesValidAtAccept_other {c : Command} (h : c.isLegalInit = false) (tv : Bool) :
    tablesValidAtAccept c tv = tv := by
  simp [tablesValidAtAccept, h]

/-- An ACCEPT never sets `tables_valid`. -/
theorem tablesValid_of_accept {c : Command} {tv : Bool} (h : tablesValidAtAccept c tv = true) : tv = true := by
  cases hc : c.isLegalInit with
  | true => simp [tablesValidAtAccept_legalInit hc] at h
  | false => rwa [tablesValidAtAccept_other hc] at h

/-! `State.responded` (R34, R183) -/

@[simp] theorem State.responded_tablesValid (r : Response) (s : State) : (s.responded r).tablesValid = s.tablesValid := rfl
@[simp] theorem State.responded_phase (r : Response) (s : State) : (s.responded r).phase = .resp := rfl
@[simp] theorem State.responded_cmd (r : Response) (s : State) : (s.responded r).cmd = s.cmd := rfl
@[simp] theorem State.responded_rsp (r : Response) (s : State) : (s.responded r).rsp = r := rfl
@[simp] theorem State.responded_delivered (r : Response) (s : State) : (s.responded r).delivered = s.delivered := rfl

/-- `s` with a legal INIT completed, the tables holding `m` (R133). -/
def State.initialised (m : Memory) (s : State) : State :=
  { s with mem := m, seq := InitSeq.unspecified s.edge, tablesValid := true, rsp := ⟨0, 0, 0⟩, phase := .resp }

@[simp] theorem State.initialised_tablesValid (m : Memory) (s : State) : (s.initialised m).tablesValid = true := rfl
@[simp] theorem State.initialised_phase (m : Memory) (s : State) : (s.initialised m).phase = .resp := rfl
@[simp] theorem State.initialised_cmd (m : Memory) (s : State) : (s.initialised m).cmd = s.cmd := rfl
@[simp] theorem State.initialised_rsp (m : Memory) (s : State) : (s.initialised m).rsp = ⟨0, 0, 0⟩ := rfl
@[simp] theorem State.initialised_delivered (m : Memory) (s : State) : (s.initialised m).delivered = s.delivered := rfl

/-- A legal INIT leaves the built tables valid and answers OK (R133). -/
theorem exec_legalInit (s : State) : ∃ m, TablesBuilt m ∧ exec (.init 0) s = .next (s.initialised m) :=
  execInit_legal s

/-- The two ways a COMPLETE can end: that of a legal INIT, and that of every other command. -/
theorem exec_cases {i : Instr} {s t : State} (h : exec i s = .next t) :
    (i = .init 0 ∧ ∃ m, TablesBuilt m ∧ t = s.initialised m) ∨ (i ≠ .init 0 ∧ ∃ r, t = s.responded r) := by
  by_cases hi : i = .init 0
  · obtain ⟨m, hm, he⟩ := exec_legalInit s
    rw [hi, he] at h
    exact .inl ⟨hi, m, hm, (Host.Outcome.next.inj h).symm⟩
  · obtain ⟨r, he⟩ := exec_responded hi s
    rw [he] at h
    exact .inr ⟨hi, r, (Host.Outcome.next.inj h).symm⟩

/-- Whatever command completes, a response is then held, and CMD and the host's record stay. -/
theorem exec_frame {i : Instr} {s t : State} (h : exec i s = .next t) :
    t.phase = .resp ∧ t.cmd = s.cmd ∧ t.delivered = s.delivered := by
  obtain ⟨-, m, -, rfl⟩ | ⟨-, r, rfl⟩ := exec_cases h <;> simp

end Sys2Proof.Machine
end

section
/-! SUPPORT. The four commands that read a table (spec/42_codec.md, spec/43_table_read.md) are one shape, so what their
checks and their use of the tables amount to is proved once. -/

namespace Sys2Proof.Machine

/-- A command that checks its argument, then `tables_valid`, then answers from the tables (R185). -/
def tableCommand (mask arg : Arg) (answer : Memory → Response) (s : State) : Host.Outcome State Fault Refusal :=
  if !argLegal mask arg then raise .invalidInput s
  else if !s.tablesValid then raise .uninit s
  else .next (s.responded (answer s.mem))

theorem exec_encode_eq (a : Arg) (s : State) : exec (.encode a) s =
    tableCommand encodeMask a (fun m => ⟨0, (m.readSlt (dataOf a)).setWidth 32, 0⟩) s := rfl

theorem exec_decode_eq (a : Arg) (s : State) : exec (.decode a) s =
    tableCommand decodeMask a (fun m => ⟨0, ((patternOf a ^^^ m.readEpl (syndrome (patternOf a))) >>> 11).setWidth 32,
      BitVec.ofNat 2 (popcount (m.readEpl (syndrome (patternOf a))))⟩) s := rfl

theorem exec_rdSlt_eq (a : Arg) (s : State) : exec (.rdSlt a) s =
    tableCommand rdSltMask a (fun m => ⟨0, (m.readSlt (dataOf a)).setWidth 32, 0⟩) s := rfl

theorem exec_rdEpl_eq (a : Arg) (s : State) : exec (.rdEpl a) s =
    tableCommand rdEplMask a (fun m => ⟨0, (m.readEpl (indexOf a)).setWidth 32, 0⟩) s := rfl

variable {mask arg : Arg} {answer : Memory → Response} {s t : State}

theorem tableCommand_illegal (ha : argLegal mask arg = false) :
    tableCommand mask arg answer s = .next (s.responded (errorResponse .invalidInput)) := by
  simp [tableCommand, ha, raise_eq, State.responded]

theorem tableCommand_uninit (ha : argLegal mask arg = true) (hv : s.tablesValid = false) :
    tableCommand mask arg answer s = .next (s.responded (errorResponse .uninit)) := by
  simp [tableCommand, ha, hv, raise_eq, State.responded]

theorem tableCommand_valid (ha : argLegal mask arg = true) (hv : s.tablesValid = true) :
    tableCommand mask arg answer s = .next (s.responded (answer s.mem)) := by
  simp [tableCommand, ha, hv]

/-- The tables show in a table command's response only while `tables_valid = 1`. -/
theorem tableCommand_sameResponse (hv : s.tablesValid = t.tablesValid) (hm : s.tablesValid = true → s.mem = t.mem) :
    ∃ r, tableCommand mask arg answer s = .next (s.responded r) ∧
      tableCommand mask arg answer t = .next (t.responded r) := by
  cases ha : argLegal mask arg with
  | false => exact ⟨_, tableCommand_illegal ha, tableCommand_illegal ha⟩
  | true =>
    cases hs : s.tablesValid with
    | false => exact ⟨_, tableCommand_uninit ha hs, tableCommand_uninit ha (hv ▸ hs)⟩
    | true => exact ⟨_, tableCommand_valid ha hs, hm hs ▸ tableCommand_valid ha (hv ▸ hs)⟩

/-- A table command answers by the checks in their order, and past them from tables of which `TablesBuilt` is known. -/
theorem tableCommand_answers {good : Response → Prop} (hgood : TablesBuilt s.mem → good (answer s.mem))
    (hb : s.tablesValid = true → TablesBuilt s.mem) (h : tableCommand mask arg answer s = .next t) :
    if !argLegal mask arg then t.rsp = errorResponse .invalidInput
    else if !t.tablesValid then t.rsp = errorResponse .uninit
    else good t.rsp := by
  cases ha : argLegal mask arg with
  | false =>
    rw [tableCommand_illegal ha] at h
    cases h
    rfl
  | true =>
    cases hs : s.tablesValid with
    | false =>
      rw [tableCommand_uninit ha hs] at h
      cases h
      simp [hs]
    | true =>
      rw [tableCommand_valid ha hs] at h
      cases h
      simpa [hs] using hgood (hb hs)

end Sys2Proof.Machine
end

section
/-! SUPPORT. What a command's response depends on, and that it is the answer the code gives. -/

namespace Sys2Proof.Machine

/-- No command but a legal INIT responds with anything but what `tables_valid`, and the tables while it is 1, settle. -/
theorem exec_sameResponse {i : Instr} (hi : i ≠ .init 0) {s t : State} (hv : s.tablesValid = t.tablesValid)
    (hm : s.tablesValid = true → s.mem = t.mem) :
    ∃ r, exec i s = .next (s.responded r) ∧ exec i t = .next (t.responded r) := by
  cases i with
  | init a =>
    have ha : a ≠ 0 := fun h => hi (h ▸ rfl)
    exact ⟨_, execInit_illegal ha s, execInit_illegal ha t⟩
  | encode a => simpa only [exec_encode_eq] using tableCommand_sameResponse hv hm
  | decode a => simpa only [exec_decode_eq] using tableCommand_sameResponse hv hm
  | rdSlt a => simpa only [exec_rdSlt_eq] using tableCommand_sameResponse hv hm
  | rdEpl a => simpa only [exec_rdEpl_eq] using tableCommand_sameResponse hv hm
  | syndrome a => rw [exec, exec, execSyndrome, execSyndrome]; split_ifs <;> exact ⟨_, rfl, rfl⟩
  | reserved0 _ | reserved7 _ | reserved8 _ | reserved9 _ | reservedA _
  | reservedB _ | reservedC _ | reservedD _ | reservedE _ | reservedF _ => exact ⟨_, rfl, rfl⟩

/-- Removing the pattern EPL holds at the syndrome of a received word is a correct decoding of it (R152). -/
theorem decodes_readEpl {m : Memory} (h : TablesBuilt m) (rx : Pattern) :
    Decodes rx ⟨0, ((rx ^^^ m.readEpl (syndrome rx)) >>> 11).setWidth 32,
      BitVec.ofNat 2 (popcount (m.readEpl (syndrome rx)))⟩ :=
  ⟨_, (h.2 _).1, (h.2 _).2, rfl⟩

/-- With built tables whenever `tables_valid = 1`, every command answers as the code alone prescribes. -/
theorem exec_answers {i : Instr} {s t : State} (hb : s.tablesValid = true → TablesBuilt s.mem)
    (h : exec i s = .next t) : Answers i t.tablesValid t.rsp := by
  cases i with
  | init a =>
    by_cases ha : a = 0
    · obtain ⟨-, m, -, rfl⟩ | ⟨hi, -⟩ := exec_cases h
      · exact (if_pos ((argLegal_initMask a).mpr ha)).mpr ⟨rfl, rfl⟩
      · exact absurd (ha ▸ rfl) hi
    · rw [exec, execInit_illegal ha] at h
      cases h
      exact (if_neg (mt (argLegal_initMask a).mp ha)).mpr rfl
  | encode a =>
    rw [exec_encode_eq] at h
    exact tableCommand_answers (good := (· = _)) (fun hm => by simp only [hm.1]) hb h
  | decode a =>
    rw [exec_decode_eq] at h
    exact tableCommand_answers (fun hm => decodes_readEpl hm _) hb h
  | syndrome a =>
    rw [exec, execSyndrome] at h
    split_ifs at h with ha <;> cases h <;> simp [Answers, ha, errorResponse]
  | rdSlt a =>
    rw [exec_rdSlt_eq] at h
    exact tableCommand_answers (good := (· = _)) (fun hm => by simp only [hm.1]) hb h
  | rdEpl a =>
    rw [exec_rdEpl_eq] at h
    refine tableCommand_answers (good := fun r => ∃ e : Pattern, syndrome e = indexOf a ∧
      popcount e ≤ Config.correctable ∧ r = ⟨0, e.setWidth 32, 0⟩) (fun hm => ?_) hb h
    exact ⟨_, (hm.2 _).1, (hm.2 _).2, rfl⟩
  | reserved0 _ | reserved7 _ | reserved8 _ | reserved9 _ | reservedA _
  | reservedB _ | reservedC _ | reservedD _ | reservedE _ | reservedF _ => cases h; rfl

end Sys2Proof.Machine
end

section
/-! No unspecified value shows (spec/10_state.md R31, spec/93_implementation_defined.md U3, U7, U8, U9): `SameSpecified`
is kept by each transition, hence by a step. -/

namespace Sys2Proof.Machine

/-- The host's view in terms of the state: no free value is in it (R219). -/
theorem State.observe_eq (s : State) : s.observe =
    ⟨s.phase == .idle && !s.inputs.rst, if s.rspValid then some s.rsp else none, s.tablesValid, s.phase != .idle⟩ := by
  cases h : s.rspValid <;> simp [State.observe, State.outputs, h]

namespace State.SameSpecified

variable {s t : State}

theorem inputs (h : s.SameSpecified t) : s.inputs = t.inputs := by
  rw [State.inputs_eq, State.inputs_eq, h.pins]

theorem observe (h : s.SameSpecified t) : s.observe = t.observe := by
  rw [State.observe_eq, State.observe_eq, State.rspValid, State.rspValid, ← h.inputs, ← h.phase, ← h.tablesValid]
  cases hp : s.phase with
  | idle => simp
  | busy => simp
  | resp => rw [h.rsp hp]

theorem clocked (h : s.SameSpecified t) : s.clocked.SameSpecified t.clocked :=
  { h with pins := congrArg List.tail h.pins }

/-- RESET makes alike any two states of the same host (R210). -/
theorem resetPulse (hp : s.pins = t.pins) (hd : s.delivered = t.delivered) (hl : s.latencies = t.latencies) :
    s.resetPulse.SameSpecified t.resetPulse where
  tablesValid := rfl
  phase       := rfl
  cmd h       := absurd rfl h
  rsp h       := by simp at h
  mem h       := by simp at h
  pins        := hp
  delivered   := hd
  latencies   := hl
  busyLeft _  := rfl

theorem accept (h : s.SameSpecified t) (c : Command) : (s.accept c).SameSpecified (t.accept c) where
  tablesValid := congrArg (tablesValidAtAccept c) h.tablesValid
  phase       := rfl
  cmd _       := rfl
  rsp hp      := by simp at hp
  mem hv      := h.mem (tablesValid_of_accept hv)
  pins        := h.pins
  delivered   := h.delivered
  latencies   := congrArg List.tail h.latencies
  busyLeft _  := congrArg (List.headD · 0) h.latencies

theorem wait (h : s.SameSpecified t) : s.wait.SameSpecified t.wait :=
  { h with busyLeft := fun hp => congrArg (· - 1) (h.busyLeft hp) }

theorem deliver (h : s.SameSpecified t) (hp : s.phase = .resp) : s.deliver.SameSpecified t.deliver where
  tablesValid := h.tablesValid
  phase       := rfl
  cmd hi      := absurd rfl hi
  rsp hr      := by simp at hr
  mem         := h.mem
  pins        := h.pins
  delivered   := congrArg₂ List.cons (h.rsp hp) h.delivered
  latencies   := h.latencies
  busyLeft hb := by simp at hb

theorem responded (h : s.SameSpecified t) (hp : s.phase ≠ .idle) (r : Response) :
    (s.responded r).SameSpecified (t.responded r) where
  tablesValid := h.tablesValid
  phase       := rfl
  cmd _       := h.cmd hp
  rsp _       := rfl
  mem         := h.mem
  pins        := h.pins
  delivered   := h.delivered
  latencies   := h.latencies
  busyLeft hb := by simp at hb

theorem initialised (h : s.SameSpecified t) (hp : s.phase ≠ .idle) (m : Memory) :
    (s.initialised m).SameSpecified (t.initialised m) where
  tablesValid := rfl
  phase       := rfl
  cmd _       := h.cmd hp
  rsp _       := rfl
  mem _       := rfl
  pins        := h.pins
  delivered   := h.delivered
  latencies   := h.latencies
  busyLeft hb := by simp at hb

/-- COMPLETE of the same command: a legal INIT builds the one memory there is (R134), and every other command sees the
tables only while they are valid. -/
theorem after_exec (h : s.SameSpecified t) (hp : s.phase ≠ .idle) (i : Instr) :
    ∃ s' t', exec i s = .next s' ∧ exec i t = .next t' ∧ s'.SameSpecified t' := by
  by_cases hi : i = .init 0
  · obtain ⟨m, hm, hs⟩ := exec_legalInit s
    obtain ⟨n, hn, ht⟩ := exec_legalInit t
    exact hi ▸ ⟨_, _, hs, ht, tablesBuilt_unique hm hn ▸ h.initialised hp m⟩
  · obtain ⟨r, hs, ht⟩ := exec_sameResponse hi h.tablesValid h.mem
    exact ⟨_, _, hs, ht, h.responded hp r⟩

/-- The relation is kept by every step, and by the same transition on both sides. -/
theorem after_step (h : s.SameSpecified t) : ∃ s' t', step s = .next s' ∧ step t = .next t' ∧ s'.SameSpecified t' := by
  have hc := h.clocked
  have hin := h.inputs
  cases hr : s.inputs.rst with
  | true =>
    exact ⟨_, _, step_reset hr, step_reset (hin ▸ hr), resetPulse hc.pins hc.delivered hc.latencies⟩
  | false =>
    have hr' : t.inputs.rst = false := hin ▸ hr
    cases hp : s.phase with
    | idle =>
      have hp' : t.phase = .idle := h.phase ▸ hp
      cases hv : s.inputs.cmdValid with
      | true => exact ⟨_, _, step_accept hr hp hv, step_accept hr' hp' (hin ▸ hv), hin ▸ hc.accept _⟩
      | false => exact ⟨_, _, step_idle hr hp hv, step_idle hr' hp' (hin ▸ hv), hc⟩
    | busy =>
      have hp' : t.phase = .busy := h.phase ▸ hp
      have hi : s.phase ≠ .idle := by simp [hp]
      by_cases hb : s.busyLeft = 0
      · rw [step_complete hr hp hb, step_complete hr' hp' (h.busyLeft hp ▸ hb), ← h.cmd hi]
        exact hc.after_exec hi _
      · exact ⟨_, _, step_wait hr hp hb, step_wait hr' hp' (h.busyLeft hp ▸ hb), hc.wait⟩
    | resp =>
      have hp' : t.phase = .resp := h.phase ▸ hp
      cases hv : s.inputs.rspReady with
      | true => exact ⟨_, _, step_deliver hr hp hv, step_deliver hr' hp' (hin ▸ hv), hc.deliver hp⟩
      | false => exact ⟨_, _, step_hold hr hp hv, step_hold hr' hp' (hin ▸ hv), hc⟩

end State.SameSpecified

/-- A state with nothing specified but `tables_valid = 0` and IDLE, of a host that has done nothing, is
`State.reset` as far as the spec goes (R31). -/
theorem sameSpecified_reset {s : State} (hp : s.pins = []) (hd : s.delivered = []) (hl : s.latencies = [])
    (hv : s.tablesValid = false) (hi : s.phase = .idle) : s.SameSpecified State.reset where
  tablesValid := hv
  phase       := hi
  cmd h       := absurd hi h
  rsp h       := by simp [hi] at h
  mem h       := by simp [hv] at h
  pins        := hp
  delivered   := hd
  latencies   := hl
  busyLeft h  := by simp [hi] at h

/-- Settles O18: `SameSpecified` is a bisimulation that fixes the observation. -/
theorem unspecifiedValuesNeverShow : Obligations.UnspecifiedValuesNeverShow := by
  refine ⟨fun s t hr h => ?_, fun s t h => ⟨h.observe, fun s' t' hs ht => ?_⟩,
    fun _ _ => State.SameSpecified.resetPulse, fun _ => sameSpecified_reset⟩
  · rw [step_reset hr] at h
    cases h
    exact ⟨rfl, rfl⟩
  · obtain ⟨u, v, hu, hv, huv⟩ := h.after_step
    rw [hu] at hs
    rw [hv] at ht
    cases hs
    cases ht
    exact huv

end Sys2Proof.Machine
end

section
/-! The transitions one by one: what ACCEPT, COMPLETE and DELIVER do, how a command in BUSY ends, and what the ports show
(spec/10_state.md R23 to R37). -/

namespace Sys2Proof.Machine

/-- Settles O12: by the transitions; ACCEPT alone makes the block owe a response, DELIVER alone discharges it. -/
theorem oneResponsePerAcceptedCommand : Obligations.OneResponsePerAcceptedCommand := by
  intro s t hr h
  obtain ⟨hr', -⟩ | ⟨-, hp, hs⟩ | ⟨-, hp, -, hs⟩ | ⟨-, hp, -, hs⟩ | ⟨-, hp, hs⟩ := step_cases s
  · simp [hr] at hr'
  · rw [hs] at h
    cases h
    cases hv : s.inputs.cmdValid <;> simp [State.owed, State.accepts, hr, hp, hv]
  · obtain ⟨htp, -, htd⟩ := exec_frame (hs ▸ h)
    simp [State.owed, State.accepts, hp, htp, htd]
  · rw [hs] at h
    cases h
    simp [State.owed, State.accepts, hp]
  · rw [hs] at h
    cases h
    cases s.inputs.rspReady <;> simp [State.owed, State.accepts, hp]

/-- A window without reset begins with an edge without one, and the rest of it lies after that edge. -/
theorem State.noResetFor_succ {s : State} {n : Nat} (h : s.noResetFor (n + 1)) :
    s.inputs.rst = false ∧ s.clocked.noResetFor n := by
  rw [State.noResetFor] at h
  rw [State.noResetFor, State.inputs_eq, State.clocked_pins]
  cases hp : s.pins with
  | nil => simp
  | cons p ps =>
    rw [hp] at h
    exact ⟨h p (by simp), fun q hq => h q (List.mem_cons_of_mem p hq)⟩

/-- A command in BUSY completes after exactly the latency left and one step more, by induction on that latency. -/
theorem busy_completes {s : State} (hb : s.tablesValid = true → TablesBuilt s.mem) (hp : s.phase = .busy)
    {n : Nat} (hn : s.busyLeft = n) (hr : s.noResetFor (n + 1)) :
    ∃ t, core.run (n + 1) s = .next t ∧ t.phase = .resp ∧ t.cmd = s.cmd ∧ t.delivered = s.delivered ∧
      Answers s.cmd.instr t.tablesValid t.rsp := by
  induction n generalizing s with
  | zero =>
    obtain ⟨hrst, -⟩ := State.noResetFor_succ hr
    obtain ⟨t, ht⟩ := exec_next s.cmd.instr s.clocked
    obtain ⟨htp, htc, htd⟩ := exec_frame ht
    exact ⟨t, core_run_one ((step_complete hrst hp hn).trans ht), htp, htc, htd, exec_answers (s := s.clocked) hb ht⟩
  | succ n ih =>
    obtain ⟨hrst, hrest⟩ := State.noResetFor_succ hr
    have hleft : s.clocked.wait.busyLeft = n := by simp [hn]
    rw [core_run_succ (step_wait hrst hp (by omega))]
    exact ih (s := s.clocked.wait) hb hp hleft hrest

/-- Settles O13, from `busy_completes`. -/
theorem commandCompletesWithinItsLatency : Obligations.CommandCompletesWithinItsLatency :=
  fun _ hinv hp hr => busy_completes hinv.tables hp rfl hr

/-- COMPLETE of a legal INIT sets `tables_valid` and answers OK (R23, R133). -/
theorem step_completesInit {s t : State} (hc : s.completesInit = true) (h : step s = .next t) :
    t.tablesValid = true ∧ t.rsp = ⟨0, 0, 0⟩ := by
  simp only [State.completesInit, Bool.and_eq_true, Bool.not_eq_true', beq_iff_eq] at hc
  obtain ⟨⟨⟨hr, hp⟩, hb⟩, hi⟩ := hc
  obtain ⟨m, -, hm⟩ := exec_legalInit s.clocked
  rw [step_complete hr hp hb, (instr_eq_init_iff _).mpr hi, hm] at h
  cases h
  exact ⟨rfl, rfl⟩

/-- No step but a reset, ACCEPT of a legal INIT and its COMPLETE writes `tables_valid` (R23). -/
theorem step_keeps_tablesValid {s t : State} (hr : s.inputs.rst = false)
    (ha : ¬(s.accepts = true ∧ s.inputs.command.isLegalInit = true)) (hc : s.completesInit = false)
    (h : step s = .next t) : t.tablesValid = s.tablesValid := by
  obtain ⟨hr', -⟩ | ⟨-, hp, hs⟩ | ⟨-, hp, hb, hs⟩ | ⟨-, -, -, hs⟩ | ⟨-, -, hs⟩ := step_cases s
  · simp [hr] at hr'
  · rw [hs] at h
    cases h
    cases hv : s.inputs.cmdValid with
    | false => rfl
    | true =>
      have hl : s.inputs.command.isLegalInit = false := by simpa [State.accepts, hr, hp, hv] using ha
      exact tablesValidAtAccept_other hl _
  · have hl : s.cmd.isLegalInit = false := by simpa [State.completesInit, hr, hp, hb] using hc
    obtain ⟨hi, -⟩ | ⟨-, r, rfl⟩ := exec_cases (hs ▸ h)
    · simp [(instr_eq_init_iff _).mp hi] at hl
    · rfl
  · rw [hs] at h
    cases h
    rfl
  · rw [hs] at h
    cases h
    cases s.inputs.rspReady <;> rfl

/-- While `tables_valid = 0` the table commands answer UNINIT to a legal argument (R181). -/
theorem exec_uninit {s : State} (hv : s.tablesValid = false) {i : Instr} (hw : i.wellFormed = true)
    (ho : i.opcode = 0x2 ∨ i.opcode = 0x3 ∨ i.opcode = 0x5 ∨ i.opcode = 0x6) :
    exec i s = .next (s.responded (errorResponse .uninit)) := by
  cases i with
  | encode a => exact (exec_encode_eq a s).trans (tableCommand_uninit hw hv)
  | decode a => exact (exec_decode_eq a s).trans (tableCommand_uninit hw hv)
  | rdSlt a => exact (exec_rdSlt_eq a s).trans (tableCommand_uninit hw hv)
  | rdEpl a => exact (exec_rdEpl_eq a s).trans (tableCommand_uninit hw hv)
  | init _ | syndrome _ => simp [Instr.opcode] at ho
  | reserved0 _ | reserved7 _ | reserved8 _ | reserved9 _ | reservedA _
  | reservedB _ | reservedC _ | reservedD _ | reservedE _ | reservedF _ => cases hw

/-- Settles O19, by the transitions. -/
theorem tablesValidChangesOnlyByInit : Obligations.TablesValidChangesOnlyByInit := by
  refine ⟨rfl, fun s t h => ⟨fun hr => ?_, fun hr ha hl => ?_, fun hc => step_completesInit hc h,
    fun hr ha hc => step_keeps_tablesValid hr ha hc h, rfl, fun hv _ => exec_uninit hv⟩⟩
  · rw [step_reset hr] at h
    cases h
    rfl
  · simp only [State.accepts, Bool.and_eq_true, beq_iff_eq] at ha
    obtain ⟨⟨-, hp⟩, hv⟩ := ha
    rw [step_accept hr hp hv] at h
    cases h
    exact tablesValidAtAccept_legalInit hl _

/-- Settles O4. -/
theorem stepCompletesDecodedCommand : Obligations.StepCompletesDecodedCommand := by
  refine fun s hp hr => ⟨fun hb => ⟨step_complete hr hp hb, ?_⟩, step_wait hr hp⟩
  obtain ⟨t, ht⟩ := exec_next s.cmd.instr s.clocked
  refine ⟨t, (step_complete hr hp hb).trans ht, (exec_frame ht).1, fun hi => ?_⟩
  obtain ⟨hi', -⟩ | ⟨-, r, rfl⟩ := exec_cases ht
  · exact absurd hi' hi
  · rfl

/-- A number that decodes as a table word is a command word, and the command is that of its two fields. -/
theorem decodeTableWord_fields {nbits w : Nat} {i : Instr} (h : decodeTableWord nbits w = some i) :
    i.opcode = opField (BitVec.ofNat 36 (w % 2 ^ nbits)) ∧ i.arg = argField (BitVec.ofNat 36 (w % 2 ^ nbits)) := by
  rw [decodeTableWord, decodeBits] at h
  split_ifs at h
  cases h
  exact decodeCommand_fields _ _

/-- Settles O5: the word's fields are in CMD, due at an edge with quiet inputs. -/
theorem fetchWordRunsNext : Obligations.FetchWordRunsNext := by
  intro s nbits w i h
  obtain ⟨ho, ha⟩ := decodeTableWord_fields h
  rw [State.withFetchWord, step_complete (s := s.acceptDue _) rfl rfl rfl, State.acceptDue_cmd, Command.instr,
    State.acceptDue, ← ho, ← ha, decodeCommand_opcode_arg]
  rfl

/-- Settles O6. -/
theorem acceptTakesTheOfferedCommand : Obligations.AcceptTakesTheOfferedCommand := by
  refine fun s hp hr hv => ⟨_, step_accept hr hp hv, rfl, ?_, rfl, rfl, rfl, rfl, rfl, rfl⟩
  simp [tablesValidAtAccept, Command.isLegalInit, HostPins.command]

/-- Settles O7. -/
theorem deliverHandsRspToTheHost : Obligations.DeliverHandsRspToTheHost :=
  fun _ hp hr => ⟨step_deliver hr hp, step_hold hr hp⟩

/-- Settles O10. -/
theorem resetStateAsTheSpecGivesIt : Obligations.ResetStateAsTheSpecGivesIt :=
  ⟨rfl, rfl, rfl⟩

/-- `rsp_valid` is 1 exactly in RESP without reset (R28, R210). -/
theorem State.rspValid_iff (s : State) : s.rspValid = true ↔ s.phase = .resp ∧ s.inputs.rst = false := by
  simp [State.rspValid]

/-- Settles O11. -/
theorem outputsFollowTheState : Obligations.OutputsFollowTheState := by
  refine fun s => ⟨?_, s.rspValid_iff, rfl, ?_, fun hv => ?_⟩
  · simp [State.outputs]
  · simp [State.outputs]
  · exact ⟨if_pos hv, if_pos hv, if_pos hv⟩

/-- Settles O16: nothing is valid, runs or is held. -/
theorem invariantHoldsAtReset : Obligations.InvariantHoldsAtReset where
  tables h     := by cases h
  building h _ := by cases h
  response h   := by cases h

end Sys2Proof.Machine
end

section
/-! The two tables as a memory and what may change them (spec/20_memory.md R50 to R58). -/

namespace Sys2Proof.Machine

@[simp] theorem State.responded_mem (r : Response) (s : State) : (s.responded r).mem = s.mem := rfl
@[simp] theorem State.responded_seq (r : Response) (s : State) : (s.responded r).seq = s.seq := rfl

/-- The one transition that writes a table or the sequencer, resets apart, is the COMPLETE of a legal INIT (R56, R58). -/
theorem step_keeps_tables {s t : State} (hr : s.inputs.rst = false) (hc : s.completesInit = false)
    (h : step s = .next t) : t.mem = s.mem ∧ t.seq = s.seq := by
  obtain ⟨hr', -⟩ | ⟨-, -, hs⟩ | ⟨-, hp, hb, hs⟩ | ⟨-, -, -, hs⟩ | ⟨-, -, hs⟩ := step_cases s
  · simp [hr] at hr'
  · rw [hs] at h
    cases h
    cases s.inputs.cmdValid <;> simp
  · have hl : s.cmd.isLegalInit = false := by simpa [State.completesInit, hr, hp, hb] using hc
    obtain ⟨hi, -⟩ | ⟨-, r, rfl⟩ := exec_cases (hs ▸ h)
    · simp [(instr_eq_init_iff _).mp hi] at hl
    · simp
  · rw [hs] at h
    cases h
    simp
  · rw [hs] at h
    cases h
    cases s.inputs.rspReady <;> simp

/-- Settles O20: outside the BUSY of a legal INIT, and while one waits there, no step is its COMPLETE. -/
theorem tablesWrittenOnlyByInit : Obligations.TablesWrittenOnlyByInit := by
  intro s t hr h
  have keeps (hc : s.completesInit = false) : (∀ d, t.mem.readSlt d = s.mem.readSlt d) ∧
      (∀ x, t.mem.readEpl x = s.mem.readEpl x) ∧ t.seq = s.seq := by
    obtain ⟨hm, hq⟩ := step_keeps_tables hr hc h
    exact ⟨fun d => by rw [hm], fun x => by rw [hm], hq⟩
  refine ⟨fun hn => keeps ?_, fun _ _ hb => keeps ?_⟩
  · by_contra hc
    simp only [State.completesInit, Bool.not_eq_false, Bool.and_eq_true, beq_iff_eq] at hc
    obtain ⟨⟨⟨-, hp⟩, -⟩, hl⟩ := hc
    exact hn ⟨hp, hl⟩
  · simp [State.completesInit, hb]

/-- Settles O36, from the laws of reads after writes and the canonical form of a memory. -/
theorem tableWritesAreOneWholeEntry : Obligations.TableWritesAreOneWholeEntry := by
  refine ⟨fun m i j x v => ⟨?_, fun hj => ?_, Memory.readEpl_writeSlt m i x v⟩,
    fun m i j d v => ⟨?_, fun hj => ?_, Memory.readSlt_writeEpl m i d v⟩, fun _ _ => Memory.ext_read⟩
  · rw [Memory.readSlt_writeSlt, if_pos rfl]
  · rw [Memory.readSlt_writeSlt, if_neg hj]
  · rw [Memory.readEpl_writeEpl, if_pos rfl]
  · rw [Memory.readEpl_writeEpl, if_neg hj]

end Sys2Proof.Machine
end

section
/-! What the contents of built tables amount to (spec/20_memory.md R53). -/

namespace Sys2Proof.Machine

/-- Bits 22:11 of a codeword are its data (R53 (a)). -/
theorem codeword_extractLsb' (d : DataWord) : (codeword d).extractLsb' 11 12 = d := by
  rw [← BitVec.setWidth_ushiftRight_eq_extractLsb, codeword_shift, BitVec.setWidth_setWidth_of_le _ (by decide),
    BitVec.setWidth_eq]

/-- The data can be read off a codeword, so no two share one (R53 (c)). -/
theorem codeword_injective : Function.Injective codeword :=
  Function.LeftInverse.injective (g := (BitVec.extractLsb' 11 12 ·)) codeword_extractLsb'

/-- The zero pattern has weight 0, so a built EPL holds it at its syndrome, 0 (R53 (d)). -/
theorem readEpl_zero {m : Memory} (h : TablesBuilt m) : m.readEpl 0 = 0 :=
  readEpl_syndrome h (e := 0) (by decide)

/-- Settles O35: valid tables are built ones, and the codewords have the properties asked of SLT. -/
theorem validTablesMeetTheInvariants : Obligations.ValidTablesMeetTheInvariants := by
  intro s hinv hv
  have hbuilt := hinv.tables hv
  have ⟨hslt, hepl⟩ := hbuilt
  refine ⟨fun d => ?_, fun d => ?_, fun d d' hd => ?_, readEpl_zero hbuilt, fun x => (hepl x).2, fun x => (hepl x).1⟩
  · rw [hslt, codeword_extractLsb']
  · rw [hslt, syndrome_codeword]
  · rw [hslt, hslt] at hd
    exact codeword_injective hd

end Sys2Proof.Machine
end

section
/-! The invariant of the block is kept by each transition (spec/20_memory.md R53, spec/41_init.md R131), hence by a
step. -/

namespace Sys2Proof.Machine

/-- After a reset nothing is claimed valid, runs or is held (R210). -/
theorem State.inv_resetPulse (s : State) : s.resetPulse.Inv where
  tables h     := by simp at h
  building h _ := by simp at h
  response h   := by simp at h

namespace State.Inv

variable {s t : State}

theorem clocked (h : s.Inv) : s.clocked.Inv := ⟨h.tables, h.building, h.response⟩

/-- ACCEPT sets no `tables_valid`, and that of a legal INIT clears it (R33). -/
theorem accept (h : s.Inv) (c : Command) : (s.accept c).Inv where
  tables hv     := h.tables (tablesValid_of_accept hv)
  building _ hl := tablesValidAtAccept_legalInit hl _
  response hp   := by simp at hp

theorem wait (h : s.Inv) : s.wait.Inv := ⟨h.tables, h.building, h.response⟩

theorem deliver (h : s.Inv) : s.deliver.Inv where
  tables        := h.tables
  building hp _ := by simp at hp
  response hp   := by simp at hp

/-- COMPLETE leaves the tables alone or built, and the response is the answer to the command that CMD still holds. -/
theorem after_complete (h : s.Inv) (he : exec s.cmd.instr s = .next t) : t.Inv where
  tables hv := by
    obtain ⟨-, m, hm, rfl⟩ | ⟨-, r, rfl⟩ := exec_cases he
    · exact hm
    · exact h.tables hv
  building hp _ := by simp [(exec_frame he).1] at hp
  response _ := by
    rw [(exec_frame he).2.1]
    exact exec_answers h.tables he

/-- The invariant is kept by every step. -/
theorem after_step (h : s.Inv) (hs : step s = .next t) : t.Inv := by
  obtain ⟨-, he⟩ | ⟨-, -, he⟩ | ⟨-, -, -, he⟩ | ⟨-, -, -, he⟩ | ⟨-, -, he⟩ := step_cases s <;> rw [he] at hs
  · cases hs
    exact s.clocked.inv_resetPulse
  · cases hs
    split
    · exact h.clocked.accept _
    · exact h.clocked
  · exact h.clocked.after_complete hs
  · cases hs
    exact h.clocked.wait
  · cases hs
    split
    · exact h.clocked.deliver
    · exact h.clocked

end State.Inv

/-- Settles O17, transition by transition. -/
theorem stepKeepsTheInvariant : Obligations.StepKeepsTheInvariant :=
  fun _ _ => State.Inv.after_step

end Sys2Proof.Machine
end

section
/-! Decoding and encoding (spec/30_encoding.md R70 to R77): a command word is its two fields, and the map of R73 is
inverse to the opcode of a command. -/

namespace Sys2Proof

theorem decodeWord_opcode (cw : CommandWord) : (decodeWord cw).opcode = opField cw := (decodeCommand_fields _ _).1

theorem decodeWord_arg (cw : CommandWord) : (decodeWord cw).arg = argField cw := (decodeCommand_fields _ _).2

@[simp] theorem decodeWord_encode (i : Instr) : decodeWord (encode i) = i := by
  rw [decodeWord, encode, opField_append, argField_append, decodeCommand_opcode_arg]

@[simp] theorem encode_decodeWord (cw : CommandWord) : encode (decodeWord cw) = cw := by
  rw [encode, decodeWord_opcode, decodeWord_arg, opField_append_argField]

/-- Settles O1: a command word is its two fields, and the map of R73 inverts the opcode. -/
theorem decodeEncodeRoundTrip : Obligations.DecodeEncodeRoundTrip :=
  ⟨decodeWord_encode, encode_decodeWord⟩

/-- Settles O2: the opcode of the decoded command is the op field. -/
theorem opFieldAloneSelects : Obligations.OpFieldAloneSelects := by
  refine fun cw => ⟨decodeWord_opcode cw, decodeWord_arg cw, fun cw' h => ?_⟩
  rw [decodeWord_opcode, decodeWord_opcode, h]

/-- A table word with room for a command word reads it whole. -/
theorem decodeTableWord_encode {nbits : Nat} (h : 36 ≤ nbits) (i : Instr) :
    decodeTableWord nbits (encode i).toNat = some i := by
  have h36 : (encode i).toNat < 2 ^ 36 := (encode i).isLt
  have hmod : (encode i).toNat % 2 ^ nbits = (encode i).toNat :=
    Nat.mod_eq_of_lt (h36.trans_le (Nat.pow_le_pow_right (by decide) h))
  rw [decodeTableWord, hmod, decodeBits, if_pos h36, BitVec.ofNat_toNat, BitVec.setWidth_eq, decodeWord_encode]

/-- A number of more than 36 bits is refused, however wide the table word that holds it. -/
theorem decodeTableWord_wide {nbits w : Nat} (h : 2 ^ 36 ≤ w) (hw : w < 2 ^ nbits) : decodeTableWord nbits w = none := by
  rw [decodeTableWord, Nat.mod_eq_of_lt hw, decodeBits, if_neg h.not_gt]

/-- Settles O3: the numbers are the encodings of the commands. -/
theorem opcodeTableWordsDecode : Obligations.OpcodeTableWordsDecode := by
  have words (i : Instr) : decodeTableWord 40 (encode i).toNat = some i := decodeTableWord_encode (by decide) i
  exact ⟨words (.init 0), words (.encode 1), words (.decode 0xC74), words (.syndrome 0x800), words (.rdSlt 0x800),
    words (.rdEpl 0x475), words (.reserved0 0), words (.reserved7 0), words (.reserved8 0x12345678),
    words (.reserved9 0x1000), words (.reservedA 1), words (.reservedB 0x80000000), words (.reservedC 0xC74),
    words (.reservedD 0x7FFFFF), words (.reservedE 0), words (.reservedF 0xFFFFFFFF), fun _ _ => decodeTableWord_wide⟩

end Sys2Proof
end

section
/-! The text of a command (spec/30_encoding.md R78): what an operand assembles to, and what a line does by its words. -/

namespace Sys2Proof.Machine

/-! Operands. -/

theorem operandArg_literal {w : List Char} {n : Nat} (h : IsLiteral w n) :
    operandArg w = if n < 2 ^ 32 then .ok (BitVec.ofNat 32 n) else .error .literalTooWide := by
  rw [operandArg, literalValue_eq_some.mpr h]

theorem operandArg_noLiteral {w : List Char} (h : ∀ n, ¬IsLiteral w n) : operandArg w = .error .badLiteral := by
  have hn : literalValue w = none := Option.eq_none_iff_forall_ne_some.mpr fun n hn => h n (literalValue_eq_some.mp hn)
  rw [operandArg, hn]

/-- A `.word` operand assembles to the command of its two fields. -/
theorem wordCommand_fields {o : Char} {cs : List Char} {op a : Nat} (ho : IsNumeral 16 [o] op) (ha : IsNumeral 16 cs a)
    (h8 : cs.length = 8) :
    wordCommand ['0' :: 'x' :: o :: '_' :: cs] = .ok (decodeCommand (BitVec.ofNat 4 op) (BitVec.ofNat 32 a)) := by
  have ho' : digitValue 16 o = some op := by simpa [digitsValue] using (numeral_iff (by decide)).mpr ho
  rw [wordCommand, ho', (numeral_iff (by decide)).mpr ha]
  exact if_pos h8

/-! Words of a line. -/

theorem lineWords_one {m : List Char} (hm : IsWord m) : lineWords (stripComment m) = [m] := by
  rw [stripComment_of_no_slash hm.no_slash, lineWords_word hm]

/-- A word and a space are the first word of the line, whatever stands after them. -/
theorem lineWords_first {m : List Char} (hm : IsWord m) (rest : List Char) :
    lineWords (stripComment (m ++ ' ' :: rest)) = m :: lineWords (stripComment rest) := by
  rw [stripComment_append hm.no_slash, stripComment_cons (by decide), lineWords_word_space hm]

/-! Lines, by their first word; `assembleLine_operandMnemonic` is the equation of the mnemonics with an operand. -/

section

variable {line m w : List Char} {ws : List (List Char)}

theorem assembleLine_noWord (h : lineWords (stripComment line) = []) : assembleLine line = .error .noMnemonic := by
  rw [assembleLine, h]

theorem assembleLine_init (h : lineWords (stripComment line) = [['I', 'N', 'I', 'T']]) :
    assembleLine line = .ok (.init 0) := by
  simp only [assembleLine, h, if_true]

theorem assembleLine_init_operand (h : lineWords (stripComment line) = ['I', 'N', 'I', 'T'] :: w :: ws) :
    assembleLine line = .error .extraOperand := by
  simp only [assembleLine, h, if_true]

theorem assembleLine_word (h : lineWords (stripComment line) = ['.', 'w', 'o', 'r', 'd'] :: ws) :
    assembleLine line = wordCommand ws := by
  simp [assembleLine, h]

theorem assembleLine_otherWord (h : lineWords (stripComment line) = m :: ws)
    (hm : m ∉ [['I', 'N', 'I', 'T'], ['E', 'N', 'C', 'O', 'D', 'E'], ['D', 'E', 'C', 'O', 'D', 'E'],
      ['S', 'Y', 'N', 'D', 'R', 'O', 'M', 'E'], ['R', 'D', '_', 'S', 'L', 'T'],
      ['R', 'D', '_', 'E', 'P', 'L'], ['.', 'w', 'o', 'r', 'd']]) :
    assembleLine line = .error .unknownMnemonic := by
  simp only [List.mem_cons, List.not_mem_nil, or_false, not_or] at hm
  obtain ⟨h1, h2, h3, h4, h5, h6, h7⟩ := hm
  simp only [assembleLine, h, h1, h2, h3, h4, h5, h6, h7, if_false]

end

/-- A line of a mnemonic and one operand assembles as the operand does. -/
theorem assembleLine_operand {p : List Char × (Arg → Instr)} (hp : p ∈ operandMnemonics) {w : List Char}
    (hw : IsWord w) : assembleLine (p.1 ++ ' ' :: w) = (operandArg w).map p.2 :=
  assembleLine_operandMnemonic hp (lineWords_two (operandMnemonics_isWord hp) hw)

/-- Settles O56: the line is two words, and the operand is read as the literal it is. -/
theorem assembledOperandIsUnchanged : Obligations.AssembledOperandIsUnchanged := by
  refine ⟨fun w n hl p hp => ?_, fun w hw hl p hp => ?_, assembleLine_init (by decide)⟩
  · rw [assembleLine_operand hp hl.isWord, operandArg_literal hl]
    constructor <;> intro h
    · rw [if_pos h]
      rfl
    · rw [if_neg h.not_gt]
      rfl
  · rw [assembleLine_operand hp hw, operandArg_noLiteral hl]
    rfl

/-- Settles O57: the spelling is two words, and the words of a line are those before its comment. -/
theorem assembledWordFormAndComment : Obligations.AssembledWordFormAndComment := by
  refine ⟨fun o cs op a ho ha h8 => ?_, fun line text hl => ?_⟩
  · have hw : IsWord ('0' :: 'x' :: o :: '_' :: cs) :=
      ⟨by simp, by simpa using ⟨(ho.isWord (by decide)).2 o (by simp), (ha.isWord (by decide)).2⟩⟩
    have hm : IsWord ['.', 'w', 'o', 'r', 'd'] := ⟨by simp, by simp⟩
    exact (assembleLine_word (lineWords_two hm hw)).trans (wordCommand_fields ho ha h8)
  · rw [assembleLine, stripComment_comment hl, assembleLine, stripComment_of_no_slash hl]

/-- Settles O58: by the words of each line. -/
theorem assemblerRefusesOtherLines : Obligations.AssemblerRefusesOtherLines := by
  refine ⟨fun w v hw hv => ⟨?_, fun p hp => ⟨?_, ?_⟩, fun hu => ⟨?_, fun rest => ?_⟩⟩, fun line hb => ?_⟩
  · exact assembleLine_init_operand (lineWords_two ⟨by simp, by simp⟩ hw)
  · exact assembleLine_operandMnemonic hp (lineWords_one (operandMnemonics_isWord hp))
  · have h : lineWords (stripComment (p.1 ++ ' ' :: w ++ ' ' :: v)) = [p.1, w, v] := by
      rw [List.append_assoc, List.cons_append, lineWords_first (operandMnemonics_isWord hp), lineWords_two hw hv]
    exact assembleLine_operandMnemonic hp h
  · exact assembleLine_otherWord (lineWords_one hv) hu
  · exact assembleLine_otherWord (lineWords_first hv rest) hu
  · have hs : '/' ∉ line := fun h => by simpa using hb _ h
    exact assembleLine_noWord (by rw [stripComment_of_no_slash hs, lineWords_blank hb])

end Sys2Proof.Machine
end

section
/-! The division as a sum of multiples of G (spec/40_divider.md R100, R103, R104): what adding up the set bits of a
pattern does, and what one step of the division does to the pattern and to its syndrome. -/

namespace Sys2Proof.Machine

/-! Sums over the set bits of a pattern. -/

/-- The GF(2) sum of `f k` over the positions `k` of `ks` that are set in `p`. -/
def bitSum {m w : Nat} (p : BitVec m) (f : Nat → BitVec w) (ks : List Nat) : BitVec w :=
  ks.foldl (fun v k => if p.getLsbD k then v ^^^ f k else v) 0

/-- A multiple of G is a sum over the set bits of its quotient (R100). -/
theorem timesG_eq_bitSum (q : DataWord) :
    timesG q = bitSum q (fun i => Config.generator <<< i) (List.range Config.dataLength) := rfl

variable {m w v : Nat}

@[simp] theorem bitSum_nil (p : BitVec m) (f : Nat → BitVec w) : bitSum p f [] = 0 := rfl

theorem bitSum_append (p : BitVec m) (f : Nat → BitVec w) (ks : List Nat) (k : Nat) :
    bitSum p f (ks ++ [k]) = bitSum p f ks ^^^ (if p.getLsbD k then f k else 0) := by
  refine List.foldl_append.trans ?_
  cases h : p.getLsbD k with
  | false => exact (if_neg (by simp [h])).trans BitVec.xor_zero.symm
  | true => exact if_pos h

/-- The sum is additive in the pattern whose bits select the terms. -/
theorem bitSum_xor (a b : BitVec m) (f : Nat → BitVec w) (ks : List Nat) :
    bitSum (a ^^^ b) f ks = bitSum a f ks ^^^ bitSum b f ks := by
  induction ks using List.reverseRecOn with
  | nil => simp
  | append_singleton ks k ih =>
    have hterm : (if (a ^^^ b).getLsbD k then f k else 0) =
        (if a.getLsbD k then f k else 0) ^^^ (if b.getLsbD k then f k else 0) := by
      cases ha : a.getLsbD k <;> cases hb : b.getLsbD k <;> simp [ha, hb]
    rw [bitSum_append, bitSum_append, bitSum_append, ih, hterm]
    ac_rfl

/-- An additive map goes through the sum. -/
theorem map_bitSum {F : BitVec w → BitVec v} (hF : ∀ a b, F (a ^^^ b) = F a ^^^ F b) (p : BitVec m)
    (f : Nat → BitVec w) (ks : List Nat) : F (bitSum p f ks) = bitSum p (fun k => F (f k)) ks := by
  have hzero : F 0 = 0 := by simpa using hF 0 0
  induction ks using List.reverseRecOn with
  | nil => exact hzero
  | append_singleton ks k ih => rw [bitSum_append, bitSum_append, hF, ih, apply_ite F, hzero]

theorem bitSum_eq_zero (p : BitVec m) {f : Nat → BitVec w} {ks : List Nat} (h : ∀ k ∈ ks, f k = 0) :
    bitSum p f ks = 0 := by
  induction ks using List.reverseRecOn with
  | nil => rfl
  | append_singleton ks k ih =>
    rw [bitSum_append, ih fun j hj => h j (by simp [hj]), h k (by simp), ite_self]
    exact BitVec.xor_self

/-- The sum of the first `n` single bits of a pattern has the pattern's first `n` bits. -/
theorem getLsbD_bitSum_one (p : BitVec m) (n i : Nat) :
    (bitSum p (fun k => 1#m <<< k) (List.range n)).getLsbD i = (decide (i < n) && p.getLsbD i) := by
  induction n with
  | zero => simp
  | succ n ih =>
    rw [List.range_succ, bitSum_append, BitVec.getLsbD_xor, ih]
    have hterm : (if p.getLsbD n then 1#m <<< n else 0).getLsbD i = (decide (n = i) && p.getLsbD i) := by
      by_cases hin : n = i
      · subst hin
        cases hp : p.getLsbD n
        · simp
        · simpa [← BitVec.twoPow_eq] using BitVec.lt_of_getLsbD hp
      · cases p.getLsbD n <;> simp [← BitVec.twoPow_eq, hin]
    rw [hterm]
    obtain h | rfl | h := lt_trichotomy i n
    · simp [h, h.ne', h.trans n.lt_succ_self]
    · simp
    · simp [h.ne, h.not_gt, h.not_ge]

/-- A pattern is the sum of its set bits. -/
theorem bitSum_one (p : BitVec m) : bitSum p (fun k => 1#m <<< k) (List.range m) = p :=
  BitVec.eq_of_getLsbD_eq fun i hi => by rw [getLsbD_bitSum_one, decide_eq_true hi, Bool.true_and]

/-! Multiples of G. -/

theorem timesG_xor (a b : DataWord) : timesG (a ^^^ b) = timesG a ^^^ timesG b := bitSum_xor a b _ _

theorem timesG_zero : timesG 0 = 0#23 := by decide

theorem timesG_bit : ∀ j < 12, timesG (1#12 <<< j) = Config.generator <<< j := by decide

theorem syndrome_generator_shift : ∀ j < 12, syndrome (Config.generator <<< j) = 0 := by decide

/-- A multiple of G has syndrome 0 (R104 (d)). -/
theorem syndrome_timesG (q : DataWord) : syndrome (timesG q) = 0#11 := by
  rw [timesG_eq_bitSum, map_bitSum syndrome_xor]
  exact bitSum_eq_zero q fun j hj => syndrome_generator_shift j (List.mem_range.mp hj)

/-! One step of the division, at a bit from 22 down to 11. -/

theorem cancelBit_set {p : Pattern} {k : Nat} (h : p.getLsbD k = true) :
    cancelBit p k = p ^^^ (Config.generator <<< (k - 11)) := if_pos h

/-- A step adds a multiple of G (R101). -/
theorem cancelBit_eq_xor_timesG (p : Pattern) {k : Nat} (hk : k < 23) : ∃ q, cancelBit p k = p ^^^ timesG q := by
  cases h : p.getLsbD k with
  | false => exact ⟨0, by rw [cancelBit_clear h, timesG_zero, BitVec.xor_zero]⟩
  | true => exact ⟨1#12 <<< (k - 11), by rw [cancelBit_set h, timesG_bit _ (by omega)]⟩

/-- So it keeps the remainder (R101). -/
theorem syndrome_cancelBit (p : Pattern) {k : Nat} (hk : k < 23) : syndrome (cancelBit p k) = syndrome p := by
  obtain ⟨q, hq⟩ := cancelBit_eq_xor_timesG p hk
  rw [hq, syndrome_xor, syndrome_timesG, BitVec.xor_zero]

/-- The top bit of G is bit 11 (R3). -/
theorem generator_getLsbD_top (i : Nat) : Config.generator.getLsbD (11 + i) = decide (i = 0) := by
  by_cases h : i < 12
  · revert i
    decide
  · rw [BitVec.getLsbD_of_ge _ _ (by omega), decide_eq_false (by omega)]

/-- A step clears the bit it stands at, and leaves a pattern with no bit above it without one (R103). -/
theorem cancelBit_lt {p : Pattern} {k : Nat} (hk : 11 ≤ k) (hp : p.toNat < 2 ^ (k + 1)) :
    (cancelBit p k).toNat < 2 ^ k := by
  apply Nat.lt_pow_two_of_testBit
  intro i hi
  obtain ⟨j, rfl⟩ := Nat.exists_eq_add_of_le hi
  have habove : p.getLsbD (k + j) = (p.getLsbD k && decide (j = 0)) := by
    cases j with
    | zero => simp
    | succ j =>
      have hpj : p.toNat < 2 ^ (k + (j + 1)) := hp.trans_le (Nat.pow_le_pow_right (by decide) (by omega))
      simpa [BitVec.getLsbD] using Nat.testBit_lt_two_pow hpj
  change (cancelBit p k).getLsbD (k + j) = false
  cases h : p.getLsbD k with
  | false => rw [cancelBit_clear h, habove, h, Bool.false_and]
  | true =>
    rw [cancelBit_set h, BitVec.getLsbD_xor, habove, h, BitVec.getLsbD_shiftLeft,
      show k + j - (k - 11) = 11 + j by omega, generator_getLsbD_top]
    cases j with
    | zero => simp [BitVec.lt_of_getLsbD h, show ¬k < k - 11 by omega]
    | succ j => simp

/-- A pattern below 2^11 is its low 11 bits. -/
theorem setWidth_setWidth_of_lt {p : Pattern} (h : p.toNat < 2 ^ 11) : (p.setWidth 11).setWidth 23 = p :=
  BitVec.eq_of_toNat_eq (by
    rw [BitVec.toNat_setWidth, BitVec.toNat_setWidth, Nat.mod_eq_of_lt h, Nat.mod_eq_of_lt p.isLt])

/-- The syndrome of a pattern below 2^11 is the pattern (R104 (b)). -/
theorem syndrome_of_lt {p : Pattern} (h : p.toNat < 2 ^ 11) : syndrome p = p.setWidth 11 := by
  rw [← syndrome_setWidth (p.setWidth 11), setWidth_setWidth_of_lt h]

/-- The division leaves a pattern and its syndrome a multiple of G apart (R100), by induction on the number of bits at 11
and above: a step at the highest of them clears it. -/
theorem xor_syndrome_eq_timesG {n : Nat} (hn : n ≤ 12) {p : Pattern} (hp : p.toNat < 2 ^ (11 + n)) :
    ∃ q, p ^^^ (syndrome p).setWidth 23 = timesG q := by
  induction n generalizing p with
  | zero => exact ⟨0, by rw [syndrome_of_lt hp, setWidth_setWidth_of_lt hp, BitVec.xor_self, timesG_zero]⟩
  | succ n ih =>
    obtain ⟨q, hq⟩ := cancelBit_eq_xor_timesG p (k := 11 + n) (by omega)
    obtain ⟨r, hr⟩ := ih (by omega) (cancelBit_lt (by omega) hp)
    rw [syndrome_cancelBit p (by omega), hq] at hr
    refine ⟨q ^^^ r, ?_⟩
    calc p ^^^ (syndrome p).setWidth 23
        = timesG q ^^^ timesG q ^^^ (p ^^^ (syndrome p).setWidth 23) := by rw [BitVec.xor_self, BitVec.zero_xor]
      _ = timesG q ^^^ (p ^^^ timesG q ^^^ (syndrome p).setWidth 23) := by ac_rfl
      _ = timesG (q ^^^ r) := by rw [hr, timesG_xor]

end Sys2Proof.Machine
end

section
/-! The divider's loop (spec/40_divider.md R101, R103, R106). The marker is a single bit, `BitVec.twoPow 32 m`. -/

namespace Sys2Proof.Machine

/-! One iteration. -/

theorem and_highMask_eq_zero_iff (p : Arg) : p &&& Config.highMask = 0 ↔ p.toNat < 2 ^ 11 :=
  and_not_mask_eq_zero_iff 11 p

theorem and_highMask_ne_zero {p : Arg} (h : 2 ^ 11 ≤ p.toNat) : ¬p &&& Config.highMask = 0 :=
  (and_highMask_eq_zero_iff p).not.mpr h.not_gt

theorem divideWithin_of_lt {p : Arg} (h : p.toNat < 2 ^ 11) (n : Nat) (marker : Arg) :
    divideWithin n p marker = some (p.setWidth 11) := by
  cases n <;> exact if_pos ((and_highMask_eq_zero_iff p).mpr h)

theorem divideWithin_zero {p : Arg} (h : 2 ^ 11 ≤ p.toNat) (marker : Arg) : divideWithin 0 p marker = none :=
  if_neg (and_highMask_ne_zero h)

/-- The marker is then kept, and G is added with its top bit at the marker. -/
theorem divideWithin_succ {p marker : Arg} (h : 2 ^ 11 ≤ p.toNat) {k : Nat} (hk : k < 32)
    (hs : slideMarker 32 p marker = some (BitVec.twoPow 32 k)) (n : Nat) :
    divideWithin (n + 1) p marker =
      divideWithin n (p ^^^ (Config.generator.setWidth 32 <<< (k - 11))) (BitVec.twoPow 32 k) := by
  refine (if_neg (and_highMask_ne_zero h)).trans ?_
  simp only [hs, BitVec.toNat_twoPow_of_lt hk, Nat.log2_two_pow]

theorem divideWithin_succ_none {p marker : Arg} (h : 2 ^ 11 ≤ p.toNat) (hs : slideMarker 32 p marker = none)
    (n : Nat) : divideWithin (n + 1) p marker = none :=
  (if_neg (and_highMask_ne_zero h)).trans (by rw [hs])

/-- G shifted by at most 11 places fits in 23 bits. -/
theorem setWidth_generator_shift : ∀ j < 12,
    Config.generator.setWidth 32 <<< j = (Config.generator <<< j).setWidth 32 := by
  decide

/-! The inner loop. -/

/-- It passes a clear bit. -/
theorem slideMarker_clear {p : Arg} {m : Nat} (h : p.getLsbD m = false) (fuel : Nat) :
    slideMarker (fuel + 1) p (BitVec.twoPow 32 m) = slideMarker fuel p (BitVec.twoPow 32 m >>> 1) :=
  if_pos (by simp [BitVec.twoPow_and, h])

/-- It ends at a set bit, and gives no marker below bit 11. -/
theorem slideMarker_set {p : Arg} {m : Nat} (h : p.getLsbD m = true) (fuel : Nat) :
    slideMarker (fuel + 1) p (BitVec.twoPow 32 m) = if m < 11 then none else some (BitVec.twoPow 32 m) := by
  have hm : m < 32 := BitVec.lt_of_getLsbD h
  have hbit : BitVec.twoPow 32 m &&& p ≠ 0 := by
    rw [BitVec.twoPow_and, if_pos h]
    intro h0
    simpa [hm] using congrArg (·.getLsbD m) h0
  have hlow : BitVec.twoPow 32 m < 0x800#32 ↔ m < 11 := by
    rw [BitVec.lt_def, BitVec.toNat_twoPow_of_lt hm]
    exact Nat.pow_lt_pow_iff_right (m := 11) (by decide)
  exact (if_neg hbit).trans (if_congr hlow rfl rfl)

theorem twoPow_ushiftRight_one {m : Nat} (hm : m + 1 < 32) : BitVec.twoPow 32 (m + 1) >>> 1 = BitVec.twoPow 32 m := by
  apply BitVec.eq_of_toNat_eq
  rw [BitVec.toNat_ushiftRight, BitVec.toNat_twoPow_of_lt hm, BitVec.toNat_twoPow_of_lt (by omega), Nat.shiftRight_one,
    Nat.pow_succ, Nat.mul_div_cancel _ (by decide)]

/-- A marker that has left the word meets no bit. -/
theorem slideMarker_zero (fuel : Nat) (p : Arg) : slideMarker fuel p 0 = none := by
  induction fuel with
  | zero => rfl
  | succ fuel ih => exact (if_pos BitVec.zero_and).trans ih

/-- From bit `m` the marker slides to the highest set bit not above it, if that is at 11 or above (R101); else there is
no marker (R106). -/
theorem slideMarker_cases (p : Arg) {m fuel : Nat} (hm : m < 32) (hf : m < fuel) :
    (∃ k, 11 ≤ k ∧ k ≤ m ∧ p.getLsbD k = true ∧ (∀ i, k < i → i ≤ m → p.getLsbD i = false) ∧
      slideMarker fuel p (BitVec.twoPow 32 m) = some (BitVec.twoPow 32 k)) ∨
    ((∀ i, 11 ≤ i → i ≤ m → p.getLsbD i = false) ∧ slideMarker fuel p (BitVec.twoPow 32 m) = none) := by
  obtain ⟨f, rfl⟩ := Nat.exists_eq_add_of_lt hf
  induction m generalizing f with
  | zero =>
    refine .inr ⟨fun i h11 h0 => by omega, ?_⟩
    cases hb : p.getLsbD 0 with
    | false => exact (slideMarker_clear hb _).trans (slideMarker_zero _ p)
    | true => exact slideMarker_set hb _
  | succ m ih =>
    cases hb : p.getLsbD (m + 1) with
    | true =>
      rw [slideMarker_set hb]
      by_cases h : m + 1 < 11
      · exact .inr ⟨fun i h11 him => by omega, if_pos h⟩
      · exact .inl ⟨m + 1, by omega, le_rfl, hb, fun i hki him => by omega, if_neg h⟩
    | false =>
      rw [show m + 1 + f + 1 = m + f + 1 + 1 by omega, slideMarker_clear hb, twoPow_ushiftRight_one hm]
      have hclear : ∀ i, i ≤ m + 1 → (i ≤ m → p.getLsbD i = false) → p.getLsbD i = false := fun i hi h => by
        obtain hi | rfl := Nat.le_succ_iff.mp hi
        · exact h hi
        · exact hb
      obtain ⟨k, h11, hkm, hset, habove, hs⟩ | ⟨hlow, hs⟩ := ih (by omega) f (by omega)
      · exact .inl ⟨k, h11, by omega, hset, fun i hki him => hclear i him (habove i hki), hs⟩
      · exact .inr ⟨fun i h11 him => hclear i him (hlow i h11), hs⟩

/-! The outer loop. -/

/-- A pattern with no bit above `m` and none from `k` to `m` is below 2^k. -/
theorem toNat_lt_of_clear {w k m : Nat} {p : BitVec w} (hp : p.toNat < 2 ^ (m + 1))
    (hc : ∀ i, k ≤ i → i ≤ m → p.getLsbD i = false) : p.toNat < 2 ^ k := by
  apply Nat.lt_pow_two_of_testBit
  intro i hi
  by_cases him : i ≤ m
  · exact hc i hi him
  · exact Nat.testBit_lt_two_pow (hp.trans_le (Nat.pow_le_pow_right (by decide) (by omega)))

/-- The loop makes no iteration on a pattern below 2^11 (R103). -/
theorem divideWithin_low {p : Pattern} (h : p.toNat < 2 ^ 11) (n : Nat) (marker : Arg) :
    divideWithin n (p.setWidth 32) marker = some (syndrome p) := by
  rw [divideWithin_of_lt (by rwa [BitVec.toNat_setWidth_of_le (by decide)]), syndrome_of_lt h,
    BitVec.setWidth_setWidth_of_le _ (by decide)]

/-- Widening a pattern to a word keeps its bits. -/
theorem getLsbD_setWidth_arg (p : Pattern) (i : Nat) : (p.setWidth 32).getLsbD i = p.getLsbD i := by
  rw [BitVec.getLsbD, BitVec.toNat_setWidth_of_le (by decide), BitVec.getLsbD]

/-- On a pattern with at most `n` bits at 11 and above, none of them above the marker, the loop ends within `n`
iterations with the syndrome: each iteration is a step of the division at the highest set bit (R103). -/
theorem divideWithin_eq_syndrome {n m : Nat} (hm : m < 23) {p : Pattern} (hn : p.toNat < 2 ^ (11 + n))
    (hp : p.toNat < 2 ^ (m + 1)) : divideWithin n (p.setWidth 32) (BitVec.twoPow 32 m) = some (syndrome p) := by
  induction n generalizing m p with
  | zero => exact divideWithin_low hn _ _
  | succ n ih =>
    by_cases hlow : p.toNat < 2 ^ 11
    · exact divideWithin_low hlow _ _
    have hcases := slideMarker_cases (p.setWidth 32) (m := m) (fuel := 32) (by omega) (by omega)
    simp only [getLsbD_setWidth_arg] at hcases
    obtain ⟨k, h11, hkm, hset, habove, hs⟩ | ⟨hclear, -⟩ := hcases
    · have hkn : k < 11 + (n + 1) :=
        (Nat.pow_lt_pow_iff_right (by decide)).mp ((Nat.ge_two_pow_of_testBit hset).trans_lt hn)
      have hhigh : 2 ^ 11 ≤ (p.setWidth 32).toNat := by
        rw [BitVec.toNat_setWidth_of_le (by decide)]
        exact not_lt.mp hlow
      have hlt : (cancelBit p k).toNat < 2 ^ k := cancelBit_lt h11 (toNat_lt_of_clear hp habove)
      rw [divideWithin_succ hhigh (by omega) hs, setWidth_generator_shift _ (by omega), ← BitVec.setWidth_xor,
        ← cancelBit_set hset, ← syndrome_cancelBit p (k := k) (by omega)]
      exact ih (by omega) (hlt.trans_le (Nat.pow_le_pow_right (by decide) (by omega)))
        (hlt.trans_le (Nat.pow_le_pow_right (by decide) (by omega)))
    · exact absurd (toNat_lt_of_clear hp hclear) hlow

/-- Adding G shifted by at most 11 places leaves a bit above 22 (R106). -/
theorem xor_generator_shift_ge {p : Arg} (hp : 2 ^ 23 ≤ p.toNat) {j : Nat} (hj : j < 12) :
    2 ^ 23 ≤ (p ^^^ (Config.generator.setWidth 32 <<< j)).toNat := by
  by_contra hlt
  have hG : (Config.generator.setWidth 32 <<< j : Arg).toNat < 2 ^ 23 := by
    rw [setWidth_generator_shift j hj, BitVec.toNat_setWidth_of_le (by decide)]
    exact BitVec.isLt _
  have hxor := Nat.xor_lt_two_pow (not_le.mp hlt) hG
  rw [BitVec.toNat_xor, Nat.xor_xor_cancel_right] at hxor
  exact hp.not_gt hxor

/-- The loop never ends on a word with a bit above 22: it stays through every iteration, and the loop goes on while it
is set (R106). -/
theorem divideWithin_eq_none {p : Arg} (hp : 2 ^ 23 ≤ p.toNat) {m : Nat} (hm : m < 23) (n : Nat) :
    divideWithin n p (BitVec.twoPow 32 m) = none := by
  have hhigh : 2 ^ 11 ≤ p.toNat := le_trans (by decide) hp
  induction n generalizing m p with
  | zero => exact divideWithin_zero hhigh _
  | succ n ih =>
    obtain ⟨k, -, hkm, -, -, hs⟩ | ⟨-, hs⟩ := slideMarker_cases p (m := m) (fuel := 32) (by omega) (by omega)
    · rw [divideWithin_succ hhigh (by omega) hs]
      have hp' := xor_generator_shift_ge hp (j := k - 11) (by omega)
      exact ih hp' (by omega) (le_trans (by decide) hp')
    · exact divideWithin_succ_none hhigh hs n

end Sys2Proof.Machine
end

section
/-! The divider's statements (spec/40_divider.md). -/

namespace Sys2Proof.Machine

/-- Settles O22: the division leaves a multiple of G, and multiples of G have syndrome 0. -/
theorem syndromeIsTheUniqueRemainder : Obligations.SyndromeIsTheUniqueRemainder := by
  intro p x
  constructor
  · rintro rfl
    exact xor_syndrome_eq_timesG le_rfl p.isLt
  · rintro ⟨q, hq⟩
    have h : syndrome p ^^^ x = 0#11 := by rw [← syndrome_timesG q, ← hq, syndrome_xor, syndrome_setWidth]
    exact (BitVec.xor_eq_zero_iff.mp h).symm

/-- Settles O25: by additivity, and by O22 at the remainder 0. -/
theorem syndromeIsLinear : Obligations.SyndromeIsLinear := by
  refine ⟨syndrome_xor, fun p => syndrome_of_lt, fun p => ?_, fun p => ?_⟩
  · exact (congrArg syndrome (bitSum_one p)).symm.trans (map_bitSum syndrome_xor p _ _)
  · have h := syndromeIsTheUniqueRemainder p 0
    simpa [eq_comm] using h

/-- Settles O23: by `divideWithin_eq_syndrome` from bit 22, and the loop's guard. -/
theorem dividerLoopComputesSyndrome : Obligations.DividerLoopComputesSyndrome := by
  intro p
  refine ⟨divideWithin_eq_syndrome (by decide) p.isLt p.isLt, fun h => ?_⟩
  rw [divideWithin_low h, syndrome_of_lt h]

/-! SYNDROME (R102). -/

theorem patternOf_toNat (a : Arg) : (patternOf a).toNat = a.toNat % 2 ^ 23 := BitVec.toNat_setWidth 23 a

theorem exec_syndrome_legal {a : Arg} (h : a.toNat ≤ 0x7FFFFF) (s : State) :
    exec (.syndrome a) s = .next (s.responded ⟨0, (syndrome (patternOf a)).setWidth 32, 0⟩) :=
  if_pos ((argLegal_syndromeMask a).mpr h)

theorem exec_syndrome_illegal {a : Arg} (h : 0x7FFFFF < a.toNat) (s : State) :
    exec (.syndrome a) s = .next (s.responded ⟨2, 0, 0⟩) :=
  if_neg ((argLegal_syndromeMask a).not.mpr h.not_ge)

/-- Settles O24: the loop by `divideWithin_eq_none`, the commands by their argument check. -/
theorem dividerLoopNeverEndsAbove23Bits : Obligations.DividerLoopNeverEndsAbove23Bits := by
  intro p hp
  refine ⟨divideWithin_eq_none hp (by decide), fun s => ⟨exec_syndrome_illegal hp s, ?_⟩⟩
  have ha : argLegal decodeMask p = false := by
    rw [Bool.eq_false_iff, Ne, argLegal_decodeMask]
    exact not_le.mpr hp
  exact (exec_decode_eq p s).trans (tableCommand_illegal ha)

/-- Settles O21: the argument check decides; below 0x800 the pattern is its own syndrome, and the syndromes of the three
literals are evaluated. -/
theorem syndromeResult : Obligations.SyndromeResult := by
  intro a s
  refine ⟨fun h => exec_syndrome_legal h s, fun h => exec_syndrome_illegal h s, fun h => ?_,
    exec_syndrome_legal (by decide) s, exec_syndrome_legal (by decide) s, exec_syndrome_legal (by decide) s⟩
  have hp : (patternOf a).toNat < 2 ^ 11 := by
    rw [patternOf_toNat]
    omega
  rw [exec_syndrome_legal (by omega), syndrome_of_lt hp]
  have h : ((patternOf a).setWidth 11).setWidth 32 = a := BitVec.eq_of_toNat_eq (by
    rw [BitVec.toNat_setWidth, BitVec.toNat_setWidth, patternOf_toNat]
    omega)
  rw [h]

end Sys2Proof.Machine
end

section
/-! Ascending lists of positions in their lexicographic order (spec/41_init.md R122): the runs v, v + 1, ... are the
least and the greatest of them, and every combination but the last ends in an element that can grow before a run that
cannot. -/

namespace Sys2Proof.Machine

/-- An element of an ascending list leaves room below the bound for the elements after it. -/
theorem head_add_length_le {n x : Nat} {l : List Nat} (hl : (x :: l).Pairwise (· < ·)) (hn : ∀ y ∈ x :: l, y ≤ n) :
    x + l.length ≤ n := by
  induction l generalizing x with
  | nil => exact hn x (by simp)
  | cons y l ih =>
    obtain ⟨hx, hl⟩ := List.pairwise_cons.mp hl
    have hxy : x < y := hx y (by simp)
    have hy : y + l.length ≤ n := ih hl fun z hz => hn z (List.mem_cons_of_mem x hz)
    rw [List.length_cons]
    omega

theorem cons_le_cons_of_lt {x y : Nat} (h : x < y) (l m : List Nat) : x :: l ≤ y :: m :=
  le_of_lt (List.cons_lt_cons_iff.mpr (.inl h))

/-- The run from `v` is the least ascending list of its length with no element below `v`. -/
theorem range'_le {v : Nat} {l : List Nat} (hl : l.Pairwise (· < ·)) (hv : ∀ y ∈ l, v ≤ y) :
    List.range' v l.length ≤ l := by
  induction l generalizing v with
  | nil => exact le_rfl
  | cons y l ih =>
    obtain ⟨hy, htail⟩ := List.pairwise_cons.mp hl
    rw [List.length_cons, List.range'_succ]
    obtain h | h := (hv y (by simp)).lt_or_eq
    · exact cons_le_cons_of_lt h _ _
    · rw [h]
      exact List.cons_le_cons y (ih htail hy)

/-- The run up to `n` is the greatest ascending list of its length with no element above `n`. -/
theorem le_range' {n : Nat} {l : List Nat} (hl : l.Pairwise (· < ·)) (hn : ∀ y ∈ l, y ≤ n) :
    l ≤ List.range' (n + 1 - l.length) l.length := by
  induction l with
  | nil => exact le_rfl
  | cons y l ih =>
    have hy : y + l.length ≤ n := head_add_length_le hl hn
    rw [List.length_cons, List.range'_succ]
    obtain h | h : y < n + 1 - (l.length + 1) ∨ y = n + 1 - (l.length + 1) := by omega
    · exact cons_le_cons_of_lt h _ _
    · rw [← h, show y + 1 = n + 1 - l.length by omega]
      exact List.cons_le_cons y (ih hl.of_cons fun z hz => hn z (List.mem_cons_of_mem y hz))

/-- An ascending list up to `n` is the last run up to `n`, or ends in an element that can grow and such a run. -/
theorem ascending_cases {n : Nat} {l : List Nat} (hl : l.Pairwise (· < ·)) (hn : ∀ y ∈ l, y ≤ n) :
    l = List.range' (n + 1 - l.length) l.length ∨
      ∃ p x m, l = p ++ x :: List.range' (n + 1 - m) m ∧ x + m < n := by
  induction l with
  | nil => exact .inl rfl
  | cons y l ih =>
    have hy : y + l.length ≤ n := head_add_length_le hl hn
    obtain hrun | ⟨p, x, m, rfl, hx⟩ := ih hl.of_cons fun z hz => hn z (List.mem_cons_of_mem y hz)
    · obtain h | h := hy.lt_or_eq
      · exact .inr ⟨[], y, l.length, congrArg (y :: ·) hrun, h⟩
      · left
        rw [List.length_cons, List.range'_succ, show n + 1 - (l.length + 1) = y by omega,
          show y + 1 = n + 1 - l.length by omega, ← hrun]
    · exact .inr ⟨y :: p, x, m, rfl, hx⟩

/-- Once the elements after it form the run up to `n`, an element grows next: whatever ascending list comes later is at
or after the one that goes on from the grown element. -/
theorem grown_le {n x m : Nat} {p c : List Nat} (hlen : c.length = p.length + 1 + m) (hc : c.Pairwise (· < ·))
    (hn : ∀ y ∈ c, y ≤ n) (h : p ++ x :: List.range' (n + 1 - m) m < c) : p ++ List.range' (x + 1) (m + 1) ≤ c := by
  induction p generalizing c with
  | nil =>
    cases c with
    | nil => exact absurd h (List.not_lt_nil _)
    | cons y c =>
      have hm : c.length = m := by simpa [Nat.add_comm] using hlen
      obtain hxy | ⟨rfl, hrun⟩ := List.cons_lt_cons_iff.mp h
      · obtain ⟨hy, -⟩ := List.pairwise_cons.mp hc
        have hle := range'_le (v := x + 1) hc (List.forall_mem_cons.mpr ⟨hxy, fun z hz => by have := hy z hz; omega⟩)
        rwa [List.length_cons, hm] at hle
      · rw [← hm] at hrun
        exact absurd hrun (le_range' hc.of_cons fun z hz => hn z (List.mem_cons_of_mem x hz)).not_gt
  | cons q p ih =>
    cases c with
    | nil => exact absurd h (List.not_lt_nil _)
    | cons y c =>
      obtain hqy | ⟨rfl, htail⟩ := List.cons_lt_cons_iff.mp h
      · exact cons_le_cons_of_lt hqy _ _
      · refine List.cons_le_cons q (ih ?_ hc.of_cons (fun z hz => hn z (List.mem_cons_of_mem q hz)) htail)
        simpa [Nat.add_right_comm] using hlen

end Sys2Proof.Machine
end

section
/-! The combination enumerator (spec/41_init.md R121 to R124): what `to_bitvector` sets, that `next_combination` is the
successor in the lexicographic order, and that its calls from the seed count through all combinations. -/

namespace Sys2Proof.Machine

/-! `to_bitvector` (R121). -/

/-- Each element of the combination sets the bit below its number, and no other bit changes. -/
theorem getLsbD_setPositions {a : List Nat} (ha : ∀ x ∈ a, 1 ≤ x ∧ x ≤ 23) (v : Pattern) (i : Nat) :
    (a.foldl (fun v x => v ||| (1#23 <<< (x - 1))) v).getLsbD i = true ↔ v.getLsbD i = true ∨ i + 1 ∈ a := by
  induction a generalizing v with
  | nil => simp
  | cons x a ih =>
    obtain ⟨⟨h1, h23⟩, ha⟩ := List.forall_mem_cons.mp ha
    have hbit : (1#23 <<< (x - 1)).getLsbD i = true ↔ i + 1 = x := by
      rw [← BitVec.twoPow_eq, BitVec.getLsbD_twoPow, Bool.and_eq_true, decide_eq_true_eq, decide_eq_true_eq]
      omega
    rw [List.foldl_cons, ih ha, BitVec.getLsbD_or, Bool.or_eq_true, hbit, List.mem_cons, or_assoc]

theorem getLsbD_toBitvector {a : List Nat} (ha : ∀ x ∈ a, 1 ≤ x ∧ x ≤ 23) (i : Nat) :
    (toBitvector a).getLsbD i = true ↔ i + 1 ∈ a := by
  rw [toBitvector, getLsbD_setPositions ha]
  simp

/-- The weight of a pattern is the number of its set positions, counted from 1 (R10, R121). -/
theorem popcount_eq_length {e : Pattern} {a : List Nat} (ha : a.Nodup) (h1 : ∀ x ∈ a, 1 ≤ x)
    (h : ∀ i, e.getLsbD i = true ↔ i + 1 ∈ a) : popcount e = a.length := by
  have hperm : (((List.range 23).filter e.getLsbD).map (· + 1)).Perm a := by
    rw [List.perm_ext_iff_of_nodup ((List.nodup_range.filter _).map (add_left_injective 1)) ha]
    intro x
    simp only [List.mem_map, List.mem_filter, List.mem_range]
    constructor
    · rintro ⟨i, ⟨-, hi⟩, rfl⟩
      exact (h i).mp hi
    · intro hx
      obtain ⟨i, rfl⟩ := Nat.exists_eq_add_of_le' (h1 x hx)
      exact ⟨i, ⟨BitVec.lt_of_getLsbD ((h i).mpr hx), (h i).mpr hx⟩, rfl⟩
  rw [← hperm.length_eq, List.length_map, popcount, List.countP_eq_length_filter]

/-- Settles O26: by `getLsbD_toBitvector`, and the weight counts the positions, all different. -/
theorem bitvectorSetsExactlyThePositions : Obligations.BitvectorSetsExactlyThePositions := by
  rintro r a ⟨rfl, hlt, hmem⟩
  have hbits := getLsbD_toBitvector hmem
  exact ⟨hbits, popcount_eq_length hlt.nodup (fun x hx => (hmem x hx).1) hbits⟩

/-! `next_combination` (R122, R124). -/

variable {n r : Nat} {a b : List Nat}

/-- The loop of R122 stops at the first position from the right that is not at its largest value. -/
theorem rightmostUnmaxed_eq_some {i m : Nat} (hi : elementAt a (i + 1) ≠ n - r + (i + 1))
    (h : ∀ k, k < m → elementAt a (i + 1 + k + 1) = n - r + (i + 1 + k + 1)) :
    rightmostUnmaxed n r a (i + 1 + m) = some (i + 1) := by
  induction m with
  | zero => exact if_neg hi
  | succ m ih => exact (if_pos (h m m.lt_succ_self)).trans (ih fun k hk => h k (by omega))

/-- The loop of R122 reaches j = 0 when every position is at its largest value (R124). -/
theorem rightmostUnmaxed_eq_none {m : Nat} (h : ∀ k, k < m → elementAt a (k + 1) = n - r + (k + 1)) :
    rightmostUnmaxed n r a m = none := by
  induction m with
  | zero => rfl
  | succ m ih => exact (if_pos (h m m.lt_succ_self)).trans (ih fun k hk => h k (by omega))

/-! The elements by their position. -/

theorem elementAt_cons (p : List Nat) (x : Nat) (l : List Nat) : elementAt (p ++ x :: l) (p.length + 1) = x := by
  simp [elementAt]

theorem elementAt_run (p : List Nat) (v m : Nat) (l : List Nat) {k : Nat} (hk : k < m) :
    elementAt (p ++ (List.range' v m ++ l)) (p.length + k + 1) = v + k := by
  rw [elementAt, Nat.add_sub_cancel, List.getD_append_right _ _ _ _ (by omega), Nat.add_sub_cancel_left,
    List.getD_append _ _ _ _ (by simpa), List.getD_eq_getElem _ _ (by simpa), List.getElem_range', Nat.one_mul]

/-- `next_combination` where the last element can grow: it grows (R122). -/
theorem nextCombination_last {p : List Nat} {x : Nat} (hr : r = p.length + 1) (hx : x < n) :
    nextCombination n r (p ++ [x]) = some (p ++ [x + 1]) := by
  have hset : (p ++ [x]).set p.length (x + 1) = p ++ [x + 1] := by simp
  simp only [nextCombination, hr, Nat.add_sub_cancel, elementAt_cons, hset]
  exact if_pos hx

/-- `next_combination` where it cannot: the loop of R122 says which one grows and where the new run starts. -/
theorem nextCombination_carry {p : List Nat} (hr : r = p.length + 1) :
    nextCombination n r (p ++ [n]) = (rightmostUnmaxed n r (p ++ [n + 1]) p.length).map fun j =>
      (p ++ [n + 1]).take (j - 1) ++ List.range' (elementAt (p ++ [n + 1]) j + 1) (r + 1 - j) := by
  have hset : (p ++ [n]).set p.length (n + 1) = p ++ [n + 1] := by simp
  simp only [nextCombination, hr, Nat.add_sub_cancel, elementAt_cons, hset]
  rw [if_neg n.lt_succ_self.not_ge]
  cases rightmostUnmaxed n (p.length + 1) (p ++ [n + 1]) p.length with
  | none => rfl
  | some j => exact congrArg (fun l => some (_ ++ l)) List.range'_eq_map_range.symm

/-- The rightmost element that can grow does, and a new run follows it (R122). -/
theorem nextCombination_grow {p : List Nat} {x m : Nat} (hr : r = p.length + 1 + m) (hn : r ≤ n) (hx : x + m < n) :
    nextCombination n r (p ++ x :: List.range' (n + 1 - m) m) = some (p ++ List.range' (x + 1) (m + 1)) := by
  cases m with
  | zero => exact nextCombination_last hr hx
  | succ m =>
    -- the combination without its last element, which is n
    obtain ⟨q, hq⟩ : ∃ q, q = p ++ x :: List.range' (n - m) m := ⟨_, rfl⟩
    have hsplit : p ++ x :: List.range' (n + 1 - (m + 1)) (m + 1) = q ++ [n] := by
      rw [hq, List.range'_1_concat, Nat.add_sub_add_right, Nat.sub_add_cancel (by omega), List.append_assoc]
      rfl
    have hlen : q.length = p.length + 1 + m := by simp [hq, Nat.add_right_comm, ← Nat.add_assoc]
    have hcons : q ++ [n + 1] = p ++ x :: (List.range' (n - m) m ++ [n + 1]) := by simp [hq]
    have hrun : q ++ [n + 1] = (p ++ [x]) ++ (List.range' (n - m) m ++ [n + 1]) := by simp [hq]
    have hstop : rightmostUnmaxed n r (q ++ [n + 1]) q.length = some (p.length + 1) := by
      rw [hlen]
      apply rightmostUnmaxed_eq_some
      · rw [hcons, elementAt_cons]
        omega
      · intro k hk
        have h := elementAt_run (p ++ [x]) (n - m) m [n + 1] hk
        rw [List.length_append, List.length_singleton, ← hrun] at h
        omega
    rw [hsplit, nextCombination_carry (by omega), hstop, Option.map_some, hcons, elementAt_cons, Nat.add_sub_cancel,
      List.take_left, show r + 1 - (p.length + 1) = m + 1 + 1 by omega]

/-- On (n-r+1, ..., n) no element can grow (R124). -/
theorem nextCombination_run (hr : 1 ≤ r) (hn : r ≤ n) : nextCombination n r (List.range' (n + 1 - r) r) = none := by
  obtain ⟨m, rfl⟩ := Nat.exists_eq_add_of_le' hr
  have hnone : rightmostUnmaxed n (m + 1) (List.range' (n - m) m ++ [n + 1]) m = none := by
    apply rightmostUnmaxed_eq_none
    intro k hk
    have h := elementAt_run [] (n - m) m [n + 1] hk
    rw [List.nil_append, List.length_nil, Nat.zero_add] at h
    omega
  rw [List.range'_1_concat, Nat.add_sub_add_right, Nat.sub_add_cancel (by omega), nextCombination_carry (by simp),
    List.length_range', hnone, Option.map_none]

theorem lastCombination_eq (hn : r ≤ n) : lastCombination n r = List.range' (n + 1 - r) r := by
  rw [lastCombination, List.range'_eq_map_range, Nat.sub_add_comm hn]

/-- A run within 1..n is a combination. -/
theorem isCombination_run {v : Nat} (hv : 1 ≤ v) (hn : v + r ≤ n + 1) : IsCombination n r (List.range' v r) := by
  refine ⟨List.length_range', List.pairwise_lt_range', fun x hx => ?_⟩
  have hx := List.mem_range'_1.mp hx
  omega

theorem isCombination_seed (hn : r ≤ n) : IsCombination n r (List.range' 1 r) :=
  isCombination_run le_rfl (by omega)

theorem isCombination_last (hn : r ≤ n) : IsCombination n r (lastCombination n r) :=
  lastCombination_eq hn ▸ isCombination_run (by omega) (by omega)

/-- There are no more positions than numbers for them. -/
theorem IsCombination.le (h : IsCombination n r a) : r ≤ n := by
  obtain ⟨rfl, hlt, hmem⟩ := h
  cases a with
  | nil => exact n.zero_le
  | cons x l =>
    have hx := head_add_length_le hlt fun y hy => (hmem y hy).2
    have h1 := (hmem x (by simp)).1
    rw [List.length_cons]
    omega

/-- The element that grows and the new run make a combination again (R122). -/
theorem isCombination_grow {p : List Nat} {x m : Nat} (h : IsCombination n r (p ++ x :: List.range' (n + 1 - m) m))
    (hx : x + m < n) : IsCombination n r (p ++ List.range' (x + 1) (m + 1)) := by
  obtain ⟨hlen, hlt, hmem⟩ := h
  obtain ⟨hp, -, hpx⟩ := List.pairwise_append.mp hlt
  refine ⟨by simpa using hlen, List.pairwise_append.mpr ⟨hp, List.pairwise_lt_range', fun y hy z hz => ?_⟩, ?_⟩
  · have hyx := hpx y hy x (by simp)
    have hz := List.mem_range'_1.mp hz
    omega
  · intro y hy
    obtain hy | hy := List.mem_append.mp hy
    · exact hmem y (List.mem_append_left _ hy)
    · have hy := List.mem_range'_1.mp hy
      omega

/-- On every combination but the last `next_combination` answers the least of the later ones (R122). -/
theorem nextCombination_isLeast (h : IsCombination n r a) (hlast : a ≠ lastCombination n r) :
    ∃ b, nextCombination n r a = some b ∧ IsCombination n r b ∧ a < b ∧ ∀ c, IsCombination n r c → a < c → b ≤ c := by
  have hn := h.le
  obtain ⟨hlen, hlt, hmem⟩ := h
  obtain hrun | ⟨p, x, m, rfl, hx⟩ := ascending_cases hlt fun y hy => (hmem y hy).2
  · rw [hlen, ← lastCombination_eq hn] at hrun
    exact absurd hrun hlast
  · have hr : r = p.length + 1 + m := by
      rw [← hlen, List.length_append, List.length_cons, List.length_range']
      omega
    refine ⟨_, nextCombination_grow hr hn hx, isCombination_grow ⟨hlen, hlt, hmem⟩ hx, ?_, ?_⟩
    · exact List.Lex.append_left _ (List.Lex.rel x.lt_succ_self) p
    · rintro c ⟨hc, hclt, hcmem⟩
      exact grown_le (hc.trans hr) hclt fun y hy => (hcmem y hy).2

/-- Settles O27, from `nextCombination_isLeast` and `nextCombination_run`. -/
theorem nextCombinationIsTheSuccessor : Obligations.NextCombinationIsTheSuccessor := by
  refine fun n r a hr h => ⟨fun hlast => ?_, ?_⟩
  · obtain ⟨b, hb, hcomb, hab, hleast⟩ := nextCombination_isLeast h hlast
    exact ⟨b, hb, hcomb, hab, fun c hc hac => (hleast c hc hac).eq_or_lt⟩
  · rintro rfl
    rw [lastCombination_eq h.le, nextCombination_run hr h.le]

/-! The enumeration (R123). -/

/-- All combinations of `r` positions out of 1..n. -/
def combinations (n r : Nat) : Finset (List Nat) := ((List.range' 1 n).sublistsLen r).toFinset

theorem mem_combinations : a ∈ combinations n r ↔ IsCombination n r a := by
  rw [combinations, List.mem_toFinset, List.mem_sublistsLen]
  constructor
  · rintro ⟨hsub, hlen⟩
    refine ⟨hlen, List.Pairwise.sublist hsub List.pairwise_lt_range', fun x hx => ?_⟩
    have hx := List.mem_range'_1.mp (hsub.subset hx)
    omega
  · rintro ⟨hlen, hlt, hmem⟩
    refine ⟨List.sublist_of_subperm_of_pairwise (hlt.nodup.subperm fun x hx => List.mem_range'_1.mpr ?_) hlt
      List.pairwise_lt_range', hlen⟩
    have hx := hmem x hx
    omega

theorem card_combinations : (combinations n r).card = n.choose r := by
  rw [combinations, List.toFinset_card_of_nodup (List.nodup_sublistsLen r List.nodup_range'), List.length_sublistsLen,
    List.length_range']

/-- How many combinations come before `a`. -/
def rank (n r : Nat) (a : List Nat) : Nat := ((combinations n r).filter (· < a)).card

theorem rank_lt_choose (ha : IsCombination n r a) : rank n r a < n.choose r := by
  rw [← card_combinations]
  exact Finset.card_lt_card (Finset.filter_ssubset.mpr ⟨a, mem_combinations.mpr ha, lt_irrefl a⟩)

theorem rank_lt_rank (ha : IsCombination n r a) (h : a < b) : rank n r a < rank n r b := by
  apply Finset.card_lt_card
  rw [Finset.ssubset_iff_of_subset (Finset.monotone_filter_right _ fun c _ hc => hc.trans h)]
  exact ⟨a, Finset.mem_filter.mpr ⟨mem_combinations.mpr ha, h⟩, by simp⟩

theorem rank_injective (ha : IsCombination n r a) (hb : IsCombination n r b) (h : rank n r a = rank n r b) : a = b := by
  obtain hab | rfl | hba := lt_trichotomy a b
  · exact absurd h (rank_lt_rank ha hab).ne
  · rfl
  · exact absurd h (rank_lt_rank hb hba).ne'

/-- The seed has no combination before it (R123). -/
theorem rank_seed : rank n r (List.range' 1 r) = 0 := by
  rw [rank, Finset.card_eq_zero, Finset.filter_eq_empty_iff]
  intro c hc
  obtain ⟨rfl, hlt, hmem⟩ := mem_combinations.mp hc
  exact (range'_le hlt fun y hy => (hmem y hy).1).not_gt

/-- The last combination has all others before it (R123). -/
theorem rank_last (hn : r ≤ n) : rank n r (lastCombination n r) = n.choose r - 1 := by
  have herase : (combinations n r).filter (· < lastCombination n r) = (combinations n r).erase (lastCombination n r) := by
    ext c
    rw [Finset.mem_filter, Finset.mem_erase, and_comm, and_congr_left_iff]
    intro hc
    obtain ⟨rfl, hlt, hmem⟩ := mem_combinations.mp hc
    have hle := le_range' hlt fun y hy => (hmem y hy).2
    rw [← lastCombination_eq hn] at hle
    exact ⟨ne_of_lt, hle.lt_of_ne⟩
  rw [rank, herase, Finset.card_erase_of_mem (mem_combinations.mpr (isCombination_last hn)), card_combinations]

/-- A call of `next_combination` passes over no combination (R123). -/
theorem rank_next (ha : IsCombination n r a) (hab : a < b) (hleast : ∀ c, IsCombination n r c → a < c → b ≤ c) :
    rank n r b = rank n r a + 1 := by
  have hinsert : (combinations n r).filter (· < b) = insert a ((combinations n r).filter (· < a)) := by
    ext c
    rw [Finset.mem_insert, Finset.mem_filter, Finset.mem_filter]
    constructor
    · rintro ⟨hc, hcb⟩
      obtain h | h := (not_lt.mp fun hac => (hleast c (mem_combinations.mp hc) hac).not_gt hcb).eq_or_lt
      · exact .inl h
      · exact .inr ⟨hc, h⟩
    · rintro (rfl | ⟨hc, hca⟩)
      · exact ⟨mem_combinations.mpr ha, hab⟩
      · exact ⟨hc, hca.trans hab⟩
  rw [rank, hinsert, Finset.card_insert_of_notMem (by simp), rank]

/-- What a call of `next_combination` that answers does: the answer is later, and next in the count (R122, R123). -/
theorem nextCombination_some (hr : 1 ≤ r) (ha : IsCombination n r a) (h : nextCombination n r a = some b) :
    IsCombination n r b ∧ a < b ∧ rank n r b = rank n r a + 1 := by
  have hlast : a ≠ lastCombination n r := by
    rintro rfl
    rw [lastCombination_eq ha.le, nextCombination_run hr ha.le] at h
    cases h
  obtain ⟨b', hb', hcomb, hab, hleast⟩ := nextCombination_isLeast ha hlast
  obtain rfl : b = b' := Option.some.inj (h.symm.trans hb')
  exact ⟨hcomb, hab, rank_next ha hab hleast⟩

theorem combinationAfter_zero : combinationAfter n r 0 = some (List.range' 1 r) := by
  rw [combinationAfter, List.range'_eq_map_range]
  simp only [Nat.add_comm]

/-- What the enumerator holds after `k` calls is the combination with `k` combinations before it (R123). -/
theorem combinationAfter_rank (hr : 1 ≤ r) (hn : r ≤ n) {k : Nat} (h : combinationAfter n r k = some a) :
    IsCombination n r a ∧ rank n r a = k := by
  induction k generalizing a with
  | zero =>
    obtain rfl := Option.some.inj (combinationAfter_zero.symm.trans h)
    exact ⟨isCombination_seed hn, rank_seed⟩
  | succ k ih =>
    obtain ⟨c, hc, hnext⟩ := Option.bind_eq_some_iff.mp h
    obtain ⟨hcomb, rfl⟩ := ih hc
    obtain ⟨ha, -, hrank⟩ := nextCombination_some hr hcomb hnext
    exact ⟨ha, hrank⟩

/-- Fewer than C(n, r) calls do not run past the last combination (R123). -/
theorem combinationAfter_isSome (hr : 1 ≤ r) (hn : r ≤ n) {k : Nat} (hk : k < n.choose r) :
    ∃ a, combinationAfter n r k = some a := by
  induction k with
  | zero => exact ⟨_, combinationAfter_zero⟩
  | succ k ih =>
    obtain ⟨a, ha⟩ := ih (by omega)
    obtain ⟨hcomb, hrank⟩ := combinationAfter_rank hr hn ha
    have hlast : a ≠ lastCombination n r := by
      rintro rfl
      have := rank_last hn
      omega
    obtain ⟨b, hb, -⟩ := nextCombination_isLeast hcomb hlast
    exact ⟨b, Option.bind_eq_some_iff.mpr ⟨a, ha, hb⟩⟩

/-- More calls give a later combination (R123). -/
theorem combinationAfter_lt (hr : 1 ≤ r) (hn : r ≤ n) {j k : Nat} (hjk : j < k)
    (ha : combinationAfter n r j = some a) (hb : combinationAfter n r k = some b) : a < b := by
  obtain ⟨hacomb, rfl⟩ := combinationAfter_rank hr hn ha
  obtain ⟨hbcomb, rfl⟩ := combinationAfter_rank hr hn hb
  obtain h | rfl | h := lt_trichotomy a b
  · exact h
  · exact absurd hjk (lt_irrefl _)
  · exact absurd hjk (rank_lt_rank hbcomb h).not_gt

/-- A combination is held after as many calls as combinations come before it (R123). -/
theorem combinationAfter_of_rank (hr : 1 ≤ r) (ha : IsCombination n r a) :
    combinationAfter n r (rank n r a) = some a := by
  obtain ⟨b, hb⟩ := combinationAfter_isSome hr ha.le (rank_lt_choose ha)
  obtain ⟨hcomb, hrank⟩ := combinationAfter_rank hr ha.le hb
  rw [hb, rank_injective hcomb ha hrank]

/-- Settles O28: the number of calls is the rank of the combination held. -/
theorem enumerationReachesEveryCombinationOnce : Obligations.EnumerationReachesEveryCombinationOnce := by
  refine ⟨fun n r hr hn => ⟨fun k hk => ?_, fun a ha => ⟨_, rank_lt_choose ha, combinationAfter_of_rank hr ha⟩,
    fun j k a b hjk ha hb => combinationAfter_lt hr hn hjk ha hb, ?_⟩, by decide, by decide⟩
  · obtain ⟨a, ha⟩ := combinationAfter_isSome hr hn hk
    exact ⟨a, ha, (combinationAfter_rank hr hn ha).1⟩
  · rw [← rank_last hn]
    exact combinationAfter_of_rank hr (isCombination_last hn)

end Sys2Proof.Machine
end

section
/-! INIT (spec/41_init.md R125 to R134): what built tables hold, when the coverage check passes, and the command. -/

namespace Sys2Proof.Machine

/-! What a successful INIT leaves (R126, R129, R133, R134). -/

/-- A legal INIT that answers next has built the tables (R133). -/
theorem exec_init_zero {s t : State} (h : exec (.init 0) s = .next t) : ∃ m, TablesBuilt m ∧ t = s.initialised m := by
  obtain ⟨-, hm⟩ | ⟨hi, -⟩ := exec_cases h
  · exact hm
  · exact absurd rfl hi

/-- Settles O29: by `exec_legalInit`, and the two entries of the example are read off the built tables. -/
theorem initBuildsBothTables : Obligations.InitBuildsBothTables := by
  refine fun a s => ⟨?_, fun ha => execInit_illegal ha s⟩
  rintro rfl
  obtain ⟨m, hm, he⟩ := exec_legalInit s
  refine ⟨m, he, hm.1, hm.2, (hm.1 1).trans (by decide), ?_⟩
  exact readEpl_syndrome hm (e := 0x000800) (by decide)

/-- A single bit below 11 is its own syndrome (R129). -/
theorem syndrome_lowBit : ∀ k ≤ 10, syndrome (1#23 <<< k) = 1#11 <<< k := by decide

theorem popcount_lowBit : ∀ k ≤ 10, popcount (1#23 <<< k) ≤ 3 := by decide

/-- Settles O30: by `readEpl_syndrome`. -/
theorem eplHoldsEveryPatternOfWeightAtMostThree : Obligations.EplHoldsEveryPatternOfWeightAtMostThree := by
  intro s t h
  obtain ⟨m, hm, rfl⟩ := exec_init_zero h
  refine ⟨fun e he => readEpl_syndrome hm he, readEpl_zero hm, fun k hk => ?_⟩
  rw [← syndrome_lowBit k hk]
  exact readEpl_syndrome hm (popcount_lowBit k hk)

/-- Settles O34: both memories are built, and built tables are unique. -/
theorem reinitialisationRebuildsTheSameTables : Obligations.ReinitialisationRebuildsTheSameTables := by
  intro s s' t t' h h'
  obtain ⟨m, hm, rfl⟩ := exec_init_zero h
  obtain ⟨m', hm', rfl⟩ := exec_init_zero h'
  exact tablesBuilt_unique hm hm'

/-- Settles O55: a legal INIT leaves built tables, any other INIT the tables it found. -/
theorem initFrame : Obligations.InitFrame := by
  intro a s t h
  obtain ⟨-, m, ⟨hslt, hepl⟩, rfl⟩ | ⟨-, r, rfl⟩ := exec_cases h
  · exact ⟨rfl, rfl, rfl, rfl, rfl, rfl, rfl, fun d => .inr (hslt d), fun x => .inr (hepl x)⟩
  · exact ⟨rfl, rfl, rfl, rfl, rfl, rfl, rfl, fun _ => .inl rfl, fun _ => .inl rfl⟩

/-- Encoding is additive (R104 (a), R125). -/
theorem codeword_xor (a b : DataWord) : codeword (a ^^^ b) = codeword a ^^^ codeword b := by
  simp only [codeword_eq, BitVec.setWidth_xor, BitVec.shiftLeft_xor_distrib, syndrome_xor]
  ac_rfl

/-- Settles O37: encoding is additive, so a codeword is the sum of those of the set bits of its data; the twelve rows are
evaluated. -/
theorem sltIsTheSumOfItsRows : Obligations.SltIsTheSumOfItsRows := by
  intro s hinv hv
  obtain ⟨hslt, -⟩ := hinv.tables hv
  simp only [hslt]
  refine ⟨fun d => ?_, by decide⟩
  calc codeword d = codeword (bitSum d (fun i => 1#12 <<< i) (List.range 12)) := by rw [bitSum_one]
    _ = bitSum d (fun i => codeword (1#12 <<< i)) (List.range 12) := map_bitSum codeword_xor _ _ _

/-! The coverage check (R130, R132). -/

/-- Settles O31: the two outcomes of `runInit_of_build`. -/
theorem coverageDecidesTheInitStatus : Obligations.CoverageDecidesTheInitStatus := by
  intro div s b hb
  rw [runInit_of_build hb]
  refine ⟨fun hall => ?_, fun ⟨i, hi, hgap⟩ => ?_⟩
  · rw [(covered_iff _).mpr hall]
    rfl
  · have hcov : covered b.seq.written = false := by
      rw [Bool.eq_false_iff, Ne, covered_iff]
      intro hall
      rw [hall i hi] at hgap
      cases hgap
    rw [hcov]
    rfl

/-- A run of puts marks the slots of the patterns it puts (R127). -/
theorem putView_marks (div : Pattern → Syndrome) {l : List Pattern} {e : Pattern} (he : e ∈ l) (v : Memory × BitVec 2048) :
    (l.foldl (putView div) v).2.getLsbD (div e).toNat = true := by
  obtain ⟨l₁, l₂, rfl⟩ := List.append_of_mem he
  rw [List.foldl_append, List.foldl_cons]
  exact putView_keepsBit div l₂ _ _ (by rw [putView_bit]; simp)

/-- Only the patterns put can mark a slot beyond those marked before (R127). -/
theorem exists_of_putView_marked {div : Pattern → Syndrome} {l : List Pattern} {v : Memory × BitVec 2048} {x : Syndrome}
    (h : (l.foldl (putView div) v).2.getLsbD x.toNat = true) : v.2.getLsbD x.toNat = true ∨ ∃ e ∈ l, div e = x := by
  induction l generalizing v with
  | nil => exact .inl h
  | cons e l ih =>
    obtain hv | ⟨f, hf, rfl⟩ := ih h
    · rw [putView_bit, Bool.or_eq_true, decide_eq_true_eq] at hv
      exact hv.imp id fun hx => ⟨e, by simp, hx.symm⟩
    · exact .inr ⟨f, List.mem_cons_of_mem e hf, rfl⟩

/-- No two patterns of weight at most 3 have the same syndrome (R128). -/
theorem syndrome_injOn_light {e f : Pattern} (he : popcount e ≤ 3) (hf : popcount f ≤ 3)
    (h : syndrome e = syndrome f) : e = f := by
  obtain ⟨b, -, -, ht⟩ := buildTables_syndrome State.reset.mem State.reset.seq
  rw [← readEpl_syndrome ht he, h, readEpl_syndrome ht hf]

theorem getLsbD_one_iff (x : Syndrome) : (1#2048).getLsbD x.toNat = true ↔ x = 0 := by
  rw [BitVec.getLsbD_one, ← BitVec.toNat_inj]
  simp

/-- Step 2 puts every nonzero pattern of weight at most 3 (R128): with the block's divider the patterns put reach every
slot, and a slot has one such pattern. -/
theorem mem_patterns {l : List Pattern} (hl : patterns = some l) {e : Pattern} (he : e ≠ 0) (hw : popcount e ≤ 3) :
    e ∈ l := by
  obtain ⟨l', hl', hlight, hcov⟩ := patterns_spec
  obtain rfl : l = l' := Option.some.inj (hl.symm.trans hl')
  rw [← putView_written syndrome l (State.reset.mem, 1#2048)] at hcov
  obtain h0 | ⟨f, hf, hfe⟩ := exists_of_putView_marked ((covered_iff _).mp hcov _ (syndrome e).isLt)
  · rw [getLsbD_one_iff] at h0
    exact absurd (syndrome_injOn_light hw (f := 0) (by decide) (h0.trans (by decide))) he
  · rwa [← syndrome_injOn_light (hlight f hf).2 hw hfe]

/-- Step 2 marks the slot of every pattern of weight at most 3, whatever the divider (R128). -/
theorem buildTables_marks {div : Pattern → Syndrome} {m : Memory} {q : InitSeq} {b : Build}
    (hb : buildTables div m q = some b) {e : Pattern} (hw : popcount e ≤ 3) :
    b.seq.written.getLsbD (slotOf div e).toNat = true := by
  obtain ⟨l, hl, -⟩ := patterns_spec
  obtain ⟨b', hb', hview⟩ := buildTables_view div m q hl
  obtain rfl : b = b' := Option.some.inj (hb.symm.trans hb')
  change (eplView b).2.getLsbD _ = true
  rw [hview]
  by_cases he : e = 0
  · rw [slotOf, if_pos he]
    exact putView_keepsBit div l _ 0 ((getLsbD_one_iff 0).mpr rfl)
  · rw [slotOf, if_neg he]
    exact putView_marks div (mem_patterns hl he hw) _

/-- If no two patterns of weight at most 3 share a slot, every slot is that of one (R130): the block's own EPL holds one
such pattern for each slot, and different ones go into different slots. -/
theorem slotOf_surjective {div : Pattern → Syndrome}
    (h : ∀ e f : Pattern, popcount e ≤ 3 → popcount f ≤ 3 → slotOf div e = slotOf div f → e = f) (x : Syndrome) :
    ∃ e, popcount e ≤ 3 ∧ slotOf div e = x := by
  obtain ⟨b, -, -, -, hepl⟩ := buildTables_syndrome State.reset.mem State.reset.seq
  have hinj : Function.Injective fun y => slotOf div (b.mem.readEpl y) := fun y z hyz => by
    rw [← (hepl y).1, ← (hepl z).1, h _ _ (hepl y).2 (hepl z).2 hyz]
  obtain ⟨y, hy⟩ := Finite.injective_iff_surjective.mp hinj x
  exact ⟨_, (hepl y).2, hy⟩

/-- If every slot is marked, no two patterns of weight at most 3 share one (R130): each slot holds such a pattern that
belongs into it, and these are all of them. -/
theorem slotOf_injOn_light {div : Pattern → Syndrome} {v : Memory × BitVec 2048} (hp : Placed div v)
    (hc : covered v.2 = true) {e f : Pattern} (he : popcount e ≤ 3) (hf : popcount f ≤ 3)
    (h : slotOf div e = slotOf div f) : e = f := by
  have hread (x : Syndrome) := hp x ((covered_iff _).mp hc _ x.isLt)
  have hinj : Function.Injective v.1.readEpl := fun x y hxy => by rw [← (hread x).1, ← (hread y).1, hxy]
  obtain ⟨x, rfl⟩ := light_reached hinj (fun x => (hread x).2) he
  obtain ⟨y, rfl⟩ := light_reached hinj (fun x => (hread x).2) hf
  rw [(hread x).1, (hread y).1] at h
  rw [h]

/-- Settles O32: the marked slots are those of the patterns of weight at most 3, which are as many as the slots. -/
theorem coverageHoldsExactlyWithoutCollision : Obligations.CoverageHoldsExactlyWithoutCollision := by
  refine ⟨fun div m q => ?_, fun m q b hb => ?_⟩
  · obtain ⟨b, hb, -, hplaced, -⟩ := buildTables_spec div m q
    refine ⟨b, hb, fun hc e f he hf => slotOf_injOn_light hplaced hc he hf, fun h => (covered_iff _).mpr fun i hi => ?_⟩
    obtain ⟨e, he, hx⟩ := slotOf_surjective h (BitVec.ofNat 11 i)
    have hmark := buildTables_marks hb he
    rwa [hx, BitVec.toNat_ofNat, Nat.mod_eq_of_lt hi] at hmark
  · obtain ⟨b', hb', hc, -⟩ := buildTables_syndrome m q
    rwa [Option.some.inj (hb.symm.trans hb')]

end Sys2Proof.Machine
end

section
/-! The perfect code (spec/42_codec.md R151, R154): every word is a codeword and a pattern of weight at most 3, in one
way, so a nonzero codeword has weight 7 or more. -/

namespace Sys2Proof.Machine

/-! Patterns of weight at most 3. -/

/-- The set positions of a pattern, ascending and counted from 1 (R121). -/
def positions (e : Pattern) : List Nat := ((List.range 23).filter e.getLsbD).map (· + 1)

theorem mem_positions (e : Pattern) (i : Nat) : i + 1 ∈ positions e ↔ e.getLsbD i = true := by
  simpa [positions] using BitVec.lt_of_getLsbD

theorem positions_range (e : Pattern) : ∀ x ∈ positions e, 1 ≤ x ∧ x ≤ 23 := by
  intro x hx
  obtain ⟨i, hi, rfl⟩ := List.mem_map.mp hx
  have := List.mem_range.mp (List.mem_filter.mp hi).1
  omega

theorem nodup_positions (e : Pattern) : (positions e).Nodup :=
  (List.nodup_range.filter _).map (add_left_injective 1)

theorem length_positions (e : Pattern) : (positions e).length = popcount e := by
  rw [positions, List.length_map, popcount, List.countP_eq_length_filter]

/-- The weight of the pattern of a list of positions is the length of the list (R121). -/
theorem popcount_toBitvector {a : List Nat} (ha : a.Nodup) (hr : ∀ x ∈ a, 1 ≤ x ∧ x ≤ 23) :
    popcount (toBitvector a) = a.length :=
  popcount_eq_length ha (fun x hx => (hr x hx).1) (getLsbD_toBitvector hr)

theorem toBitvector_positions (e : Pattern) : toBitvector (positions e) = e :=
  BitVec.eq_of_getLsbD_eq fun i _ => by
    rw [Bool.eq_iff_iff, getLsbD_toBitvector (positions_range e), mem_positions]

/-- The pattern of two lists of different positions is the sum of the two patterns. -/
theorem toBitvector_append {a b : List Nat} (hn : (a ++ b).Nodup) (hr : ∀ x ∈ a ++ b, 1 ≤ x ∧ x ≤ 23) :
    toBitvector (a ++ b) = toBitvector a ^^^ toBitvector b := by
  apply BitVec.eq_of_getLsbD_eq
  intro i _
  have hab := getLsbD_toBitvector hr i
  have ha := getLsbD_toBitvector (fun x hx => hr x (List.mem_append_left b hx)) i
  have hb := getLsbD_toBitvector (fun x hx => hr x (List.mem_append_right a hx)) i
  have hdisj : i + 1 ∈ a → i + 1 ∉ b := fun h => List.disjoint_of_nodup_append hn h
  rw [List.mem_append, ← ha, ← hb] at hab
  rw [← ha, ← hb] at hdisj
  rw [Bool.eq_iff_iff, hab, BitVec.getLsbD_xor]
  cases h : (toBitvector a).getLsbD i with
  | true => simp [hdisj h]
  | false => simp

/-- A pattern of weight at most 6 is the sum of two of weight at most 3: cut its list of positions after the third. -/
theorem exists_light_xor_light {e : Pattern} (he : popcount e ≤ 6) :
    ∃ f g : Pattern, popcount f ≤ 3 ∧ popcount g ≤ 3 ∧ e = f ^^^ g := by
  have hr := positions_range e
  have hn := nodup_positions e
  have hlen := length_positions e
  obtain ⟨a, b, hab, ha, hb⟩ : ∃ a b, positions e = a ++ b ∧ a.length ≤ 3 ∧ b.length ≤ 3 :=
    ⟨(positions e).take 3, (positions e).drop 3, (List.take_append_drop 3 _).symm, by simp, by simp; omega⟩
  rw [hab] at hr hn
  refine ⟨toBitvector a, toBitvector b, ?_, ?_, ?_⟩
  · rwa [popcount_toBitvector hn.of_append_left fun x hx => hr x (List.mem_append_left b hx)]
  · rwa [popcount_toBitvector hn.of_append_right fun x hx => hr x (List.mem_append_right a hx)]
  · rw [← toBitvector_append hn hr, ← hab, toBitvector_positions]

/-- A pattern of weight at most 3 is a lightest one with its syndrome. -/
theorem popcount_le_of_syndrome_eq {e f : Pattern} (he : popcount e ≤ 3) (h : syndrome e = syndrome f) :
    popcount e ≤ popcount f := by
  by_cases hf : popcount f ≤ 3
  · rw [syndrome_injOn_light he hf h]
  · omega

/-- A nonzero pattern with syndrome 0 has weight 7 or more: two light summands would have the same syndrome. -/
theorem seven_le_popcount {e : Pattern} (h : syndrome e = 0) (h0 : e ≠ 0) : 7 ≤ popcount e := by
  by_contra hlt
  obtain ⟨f, g, hf, hg, rfl⟩ := exists_light_xor_light (e := e) (by omega)
  rw [syndrome_xor] at h
  obtain rfl := syndrome_injOn_light hf hg (BitVec.xor_eq_zero_iff.mp h)
  exact h0 BitVec.xor_self

/-! Codewords. -/

theorem lt_of_extractLsb'_eq_zero {p : Pattern} (h : p.extractLsb' 11 12 = 0) : p.toNat < 2 ^ 11 := by
  have h0 : p.toNat >>> 11 % 2 ^ 12 = 0 := by
    rw [← BitVec.extractLsb'_toNat, h]
    rfl
  rw [Nat.shiftRight_eq_div_pow] at h0
  omega

/-- A pattern with syndrome 0 is the codeword of its upper 12 bits (R151): what is left of it without that codeword has
no bit above 10, so is its own syndrome, 0. -/
theorem eq_codeword {p : Pattern} (h : syndrome p = 0) : p = codeword (p.extractLsb' 11 12) := by
  have hs : syndrome (p ^^^ codeword (p.extractLsb' 11 12)) = 0 := by
    rw [syndrome_xor, h, syndrome_codeword]
    rfl
  have hlt : (p ^^^ codeword (p.extractLsb' 11 12)).toNat < 2 ^ 11 := by
    apply lt_of_extractLsb'_eq_zero
    rw [BitVec.extractLsb'_xor, codeword_extractLsb', BitVec.xor_self]
    rfl
  rw [syndrome_of_lt hlt] at hs
  rw [← BitVec.xor_eq_zero_iff, ← setWidth_setWidth_of_lt hlt, hs]
  rfl

/-- Every word is a codeword with a pattern of weight at most 3 added (R154): EPL has one with the word's syndrome. -/
theorem exists_codeword_xor_light (rx : Pattern) :
    ∃ (d : DataWord) (f : Pattern), popcount f ≤ 3 ∧ rx = codeword d ^^^ f := by
  obtain ⟨b, -, -, -, hepl⟩ := buildTables_syndrome State.reset.mem State.reset.seq
  obtain ⟨hsyn, hlight⟩ := hepl (syndrome rx)
  have h0 : syndrome (rx ^^^ b.mem.readEpl (syndrome rx)) = 0 := by
    rw [syndrome_xor, hsyn, BitVec.xor_self]
    rfl
  exact ⟨_, _, hlight, by rw [← eq_codeword h0, xor_cancel_right]⟩

theorem syndrome_codeword_xor (d : DataWord) (f : Pattern) : syndrome (codeword d ^^^ f) = syndrome f := by
  rw [syndrome_xor, syndrome_codeword]
  exact BitVec.zero_xor

end Sys2Proof.Machine
end

section
/-! ENCODE and DECODE (spec/42_codec.md R150 to R155). -/

namespace Sys2Proof.Machine

/-- Settles O54: no command but a legal INIT does more than respond. -/
theorem commandsOtherThanInitWriteOnlyTheResponse : Obligations.CommandsOtherThanInitWriteOnlyTheResponse := by
  intro i s t hi h
  obtain ⟨hi', -⟩ | ⟨-, r, rfl⟩ := exec_cases h
  · exact absurd hi' hi
  · exact ⟨rfl, rfl, rfl, rfl, rfl, rfl, rfl, rfl, rfl, fun _ => rfl, fun _ => rfl⟩

/-- The three answers of a table command whose legal arguments are those up to `n` (R185). -/
theorem tableCommand_result {mask arg : Arg} {n : Nat} (hn : argLegal mask arg = true ↔ arg.toNat ≤ n)
    (answer : Memory → Response) (s : State) :
    (n < arg.toNat → tableCommand mask arg answer s = .next (s.responded ⟨2, 0, 0⟩)) ∧
    (arg.toNat ≤ n → s.tablesValid = false → tableCommand mask arg answer s = .next (s.responded ⟨3, 0, 0⟩)) ∧
    (arg.toNat ≤ n → s.tablesValid = true → tableCommand mask arg answer s = .next (s.responded (answer s.mem))) :=
  ⟨fun h => tableCommand_illegal (Bool.eq_false_iff.mpr (hn.not.mpr h.not_ge)),
    fun h => tableCommand_uninit (hn.mpr h), fun h => tableCommand_valid (hn.mpr h)⟩

/-! A table command's argument made of the index or pattern it stands for. -/

theorem toNat_setWidth_le {w : Nat} (hw : w ≤ 32) (v : BitVec w) : (v.setWidth 32).toNat ≤ 2 ^ w - 1 := by
  rw [BitVec.toNat_setWidth_of_le hw]
  exact Nat.le_sub_one_of_lt v.isLt

theorem setWidth_setWidth_arg {w : Nat} (hw : w ≤ 32) (v : BitVec w) : (v.setWidth 32).setWidth w = v := by
  rw [BitVec.setWidth_setWidth_of_le _ hw, BitVec.setWidth_eq]

@[simp] theorem dataOf_setWidth (d : DataWord) : dataOf (d.setWidth 32) = d := setWidth_setWidth_arg (by decide) d

@[simp] theorem patternOf_setWidth (p : Pattern) : patternOf (p.setWidth 32) = p := setWidth_setWidth_arg (by decide) p

@[simp] theorem indexOf_setWidth (x : Syndrome) : indexOf (x.setWidth 32) = x := setWidth_setWidth_arg (by decide) x

/-- A pattern keeps its weight as a command's argument. -/
theorem popcount_setWidth_arg (p : Pattern) : popcount (p.setWidth 32) = popcount p := by
  have hhigh : ((List.range 9).map (23 + ·)).countP (fun i => p.getLsbD i) = 0 := by
    simp
  simp only [popcount, getLsbD_setWidth_arg]
  rw [show (32 : Nat) = 23 + 9 from rfl, List.range_add, List.countP_append, hhigh, Nat.add_zero]

/-! The commands while the tables are built and valid. -/

section
variable {s : State} (hb : TablesBuilt s.mem) (hv : s.tablesValid = true)
include hb hv

/-- ENCODE answers the codeword (R150). -/
theorem exec_encode_data (d : DataWord) :
    exec (.encode (d.setWidth 32)) s = .next (s.responded ⟨0, (codeword d).setWidth 32, 0⟩) := by
  have ha := (argLegal_encodeMask _).mpr (toNat_setWidth_le (by decide) d)
  rw [exec_encode_eq, tableCommand_valid ha hv, dataOf_setWidth, hb.1]

/-- RD_EPL of the syndrome of a pattern of weight at most 3 answers the pattern (R172). -/
theorem exec_rdEpl_syndrome {f : Pattern} (hf : popcount f ≤ 3) :
    exec (.rdEpl ((syndrome f).setWidth 32)) s = .next (s.responded ⟨0, f.setWidth 32, 0⟩) := by
  have ha := (argLegal_rdEplMask _).mpr (toNat_setWidth_le (by decide) (syndrome f))
  rw [exec_rdEpl_eq, tableCommand_valid ha hv, indexOf_setWidth, readEpl_syndrome hb hf]

/-- DECODE removes a pattern of weight at most 3 from a codeword and answers the data and the weight (R153). -/
theorem exec_decode_codeword_xor (d : DataWord) {f : Pattern} (hf : popcount f ≤ 3) :
    exec (.decode ((codeword d ^^^ f).setWidth 32)) s =
      .next (s.responded ⟨0, d.setWidth 32, BitVec.ofNat 2 (popcount f)⟩) := by
  have ha := (argLegal_decodeMask _).mpr (toNat_setWidth_le (by decide) (codeword d ^^^ f))
  rw [exec_decode_eq, tableCommand_valid ha hv, patternOf_setWidth, syndrome_codeword_xor, readEpl_syndrome hb hf,
    xor_cancel_right, codeword_shift, BitVec.setWidth_setWidth (by decide)]

end

/-- Settles O39: ENCODE answers `codeword`, and the sum of two codewords is one, of weight 7 or more. -/
theorem encodeGivesTheLinearCode : Obligations.EncodeGivesTheLinearCode := by
  refine fun s hinv hv => ⟨codeword, exec_encode_data (hinv.tables hv) hv, codeword_extractLsb', syndrome_codeword,
    fun _ _ => (codeword_injective ·), codeword_xor, fun d d' hd => seven_le_popcount ?_ fun h => ?_⟩
  · rw [← codeword_xor, syndrome_codeword]
  · exact hd (codeword_injective (BitVec.xor_eq_zero_iff.mp h))

/-- Settles O41. -/
theorem decodeCorrectsUpToThreeErrors : Obligations.DecodeCorrectsUpToThreeErrors :=
  fun _ hinv hv d _ => exec_decode_codeword_xor (hinv.tables hv) hv d

/-- Settles O42: the received word is a codeword with a light pattern added; its sum with any other codeword has the
same syndrome as that pattern, so no smaller weight. -/
theorem decodeFindsTheNearestCodeword : Obligations.DecodeFindsTheNearestCodeword := by
  intro s hinv hv rx
  obtain ⟨d, f, hf, rfl⟩ := exists_codeword_xor_light rx
  have hdist (d' : DataWord) : codeword d ^^^ f ^^^ codeword d' = codeword (d ^^^ d') ^^^ f := by
    rw [codeword_xor]
    ac_rfl
  refine ⟨d, popcount f, exec_decode_codeword_xor (hinv.tables hv) hv d hf, hf, ?_, fun d' => ?_⟩
  · rw [BitVec.xor_comm, xor_cancel_left]
  · rw [hdist]
    exact popcount_le_of_syndrome_eq hf (syndrome_codeword_xor _ f).symm

/-- Settles O43: with the received word a codeword and a light pattern, each command's answer is known. -/
theorem reencodeGivesBackThePattern : Obligations.ReencodeGivesBackThePattern := by
  intro s t hinv hv rx h
  have hb := hinv.tables hv
  obtain ⟨d, f, hf, rfl⟩ := exists_codeword_xor_light rx
  rw [exec_decode_codeword_xor hb hv d hf] at h
  cases h
  have hsyn := exec_syndrome_legal (toNat_setWidth_le (by decide) (codeword d ^^^ f)) s
  rw [patternOf_setWidth, syndrome_codeword_xor] at hsyn
  refine ⟨Nat.lt_of_le_pred (by decide) (toNat_setWidth_le (by decide) d), codeword d, exec_encode_data hb hv d, ?_⟩
  rw [xor_cancel_left, syndrome_codeword_xor]
  exact ⟨(readEpl_syndrome hb hf).symm, hf, rfl, _, hsyn, exec_rdEpl_syndrome hb hv hf⟩

/-- Settles O38: the checks of a table command; the three codewords are evaluated. -/
theorem encodeResult : Obligations.EncodeResult := by
  intro a s
  obtain ⟨hillegal, huninit, hvalid⟩ := tableCommand_result (argLegal_encodeMask a)
    (fun m => ⟨0, (m.readSlt (dataOf a)).setWidth 32, 0⟩) s
  refine ⟨hillegal, huninit, hvalid, fun hinv hv => ?_⟩
  have encode {d : DataWord} {c : Pattern} (hc : codeword d = c) :
      exec (.encode (d.setWidth 32)) s = .next (s.responded ⟨0, c.setWidth 32, 0⟩) :=
    hc ▸ exec_encode_data (hinv.tables hv) hv d
  exact ⟨encode (d := 0) (c := 0) (by decide), encode (d := 1) (c := 0x000C75) (by decide),
    encode (d := 0xFFF) (c := 0x7FFFFF) (by decide)⟩

/-- Settles O40: the checks of a table command; in the corner cases the word is a codeword and a light pattern. -/
theorem decodeResult : Obligations.DecodeResult := by
  intro a s
  obtain ⟨hillegal, huninit, hvalid⟩ := tableCommand_result (argLegal_decodeMask a)
    (fun m => ⟨0, ((patternOf a ^^^ m.readEpl (syndrome (patternOf a))) >>> 11).setWidth 32,
      BitVec.ofNat 2 (popcount (m.readEpl (syndrome (patternOf a))))⟩) s
  refine ⟨hillegal, huninit, fun ha hv e he => he ▸ hvalid ha hv, fun hinv hv => ?_⟩
  have decode {d : DataWord} {f rx : Pattern} (hf : popcount f ≤ 3) (hrx : codeword d ^^^ f = rx) :
      exec (.decode (rx.setWidth 32)) s = .next (s.responded ⟨0, d.setWidth 32, BitVec.ofNat 2 (popcount f)⟩) :=
    hrx ▸ exec_decode_codeword_xor (hinv.tables hv) hv d hf
  refine ⟨decode (d := 0xFFF) (f := 0) (rx := 0x7FFFFF) (by decide) (by decide),
    decode (d := 0x048) (f := 0x024020) (rx := 0x00000F) (by decide) (by decide),
    decode (d := 0x001) (f := 0x000001) (rx := 0x000C74) (by decide) (by decide), fun ha hw => ?_⟩
  have harg : (patternOf a).setWidth 32 = a := BitVec.eq_of_toNat_eq (by
    rw [BitVec.toNat_setWidth, patternOf_toNat]
    omega)
  rw [← harg, popcount_setWidth_arg] at hw ⊢
  exact decode (d := 0) hw (BitVec.zero_xor)

end Sys2Proof.Machine
end

section
/-! RD_SLT and RD_EPL (spec/43_table_read.md R170 to R173). -/

namespace Sys2Proof.Machine

/-- RD_SLT is ENCODE: both read SLT at the same 12 bits of the argument, after the same checks (R150, R170). -/
theorem exec_rdSlt_eq_exec_encode (a : Arg) (s : State) : exec (.rdSlt a) s = exec (.encode a) s :=
  (exec_rdSlt_eq a s).trans (exec_encode_eq a s).symm

/-- RD_EPL of a syndrome answers its entry, whatever the table holds (R172). -/
theorem exec_rdEpl_index {s : State} (hv : s.tablesValid = true) (x : Syndrome) :
    exec (.rdEpl (x.setWidth 32)) s = .next (s.responded ⟨0, (s.mem.readEpl x).setWidth 32, 0⟩) := by
  have ha := (argLegal_rdEplMask _).mpr (toNat_setWidth_le (by decide) x)
  rw [exec_rdEpl_eq, tableCommand_valid ha hv, indexOf_setWidth]

/-- SYNDROME of a pattern answers its syndrome (R102). -/
theorem exec_syndrome_pattern (p : Pattern) (s : State) :
    exec (.syndrome (p.setWidth 32)) s = .next (s.responded ⟨0, (syndrome p).setWidth 32, 0⟩) := by
  rw [exec_syndrome_legal (toNat_setWidth_le (by decide) p), patternOf_setWidth]

/-- Settles O46: RD_EPL responds with the entry and leaves the memory, and a built entry's syndrome is its index. -/
theorem eplTotalityAsTheHostChecksIt : Obligations.EplTotalityAsTheHostChecksIt := by
  refine ⟨fun a s => exec_responded (by simp) s, fun i s t hi h => ?_, fun s hinv hv x => ?_⟩
  · obtain ⟨hi', -⟩ | ⟨-, r, rfl⟩ := exec_cases h
    · exact absurd hi' hi
    · exact fun _ => rfl
  · obtain ⟨-, hepl⟩ := hinv.tables hv
    refine ⟨_, exec_rdEpl_index hv x, rfl, rfl, ?_⟩
    rw [State.responded_rsp, exec_syndrome_pattern, (hepl x).1]

/-- Settles O44: RD_SLT is ENCODE, so its checks are O38's; the three codewords are evaluated. -/
theorem rdSltResult : Obligations.RdSltResult := by
  intro a s
  rw [exec_rdSlt_eq_exec_encode a s]
  obtain ⟨hillegal, huninit, hvalid, -⟩ := encodeResult a s
  refine ⟨hillegal, huninit, hvalid, fun _ => rfl, fun hinv hv => ?_⟩
  have read {d : DataWord} {c : Pattern} (hc : codeword d = c) :
      exec (.rdSlt (d.setWidth 32)) s = .next (s.responded ⟨0, c.setWidth 32, 0⟩) :=
    hc ▸ (exec_rdSlt_eq_exec_encode _ s).trans (exec_encode_data (hinv.tables hv) hv d)
  exact ⟨read (d := 0) (c := 0) (by decide), read (d := 0x800) (c := 0x40063A) (by decide),
    read (d := 0xFFF) (c := 0x7FFFFF) (by decide)⟩

/-- Settles O45: the checks of a table command; the three patterns are light, and their syndromes are evaluated. -/
theorem rdEplResult : Obligations.RdEplResult := by
  intro a s
  obtain ⟨hillegal, huninit, hvalid⟩ := tableCommand_result (argLegal_rdEplMask a)
    (fun m => ⟨0, (m.readEpl (indexOf a)).setWidth 32, 0⟩) s
  refine ⟨hillegal, huninit, hvalid, fun hinv hv => ?_⟩
  have read {x : Syndrome} {e : Pattern} (hw : popcount e ≤ 3) (hx : syndrome e = x) :
      exec (.rdEpl (x.setWidth 32)) s = .next (s.responded ⟨0, e.setWidth 32, 0⟩) :=
    hx ▸ exec_rdEpl_syndrome (hinv.tables hv) hv hw
  exact ⟨read (x := 0) (e := 0) (by decide) (by decide), read (x := 0x475) (e := 0x000800) (by decide) (by decide),
    read (x := 0x7FF) (e := 0x028080) (by decide) (by decide)⟩

end Sys2Proof.Machine
end

section
/-! The checks of a command and the statuses they give (spec/60_exceptions.md R180 to R190), in the order of R185: the
opcode, the argument, `tables_valid`, and past them the answer. -/

namespace Sys2Proof.Machine

/-- The reserved opcodes are 0x0 and those from 0x7 on (R76). -/
theorem isReserved_iff (i : Instr) : i.isReserved = true ↔ i.opcode = 0x0 ∨ 7 ≤ i.opcode.toNat := by
  cases i with
  | init _ | encode _ | decode _ | syndrome _ | rdSlt _ | rdEpl _ =>
    exact iff_of_false Bool.false_ne_true (by simp [Instr.opcode])
  | reserved0 _ => exact iff_of_true rfl (.inl rfl)
  | reserved7 _ | reserved8 _ | reserved9 _ | reservedA _ | reservedB _
  | reservedC _ | reservedD _ | reservedE _ | reservedF _ => exact iff_of_true rfl (.inr (by simp [Instr.opcode]))

/-- A reserved opcode raises ILLEGAL_OP (R184). -/
theorem exec_reserved {i : Instr} (hr : i.isReserved = true) (s : State) :
    exec i s = .next (s.responded (errorResponse .illegalOp)) := by
  cases i with
  | init _ | encode _ | decode _ | syndrome _ | rdSlt _ | rdEpl _ => cases hr
  | reserved0 _ | reserved7 _ | reserved8 _ | reserved9 _ | reservedA _
  | reservedB _ | reservedC _ | reservedD _ | reservedE _ | reservedF _ => rfl

/-- An argument outside the command's LEGAL_MASK raises INVALID_INPUT (R182). -/
theorem exec_illegalArg {i : Instr} (hr : i.isReserved = false) (hw : i.wellFormed = false) (s : State) :
    exec i s = .next (s.responded (errorResponse .invalidInput)) := by
  cases i with
  | init a => exact execInit_illegal (mt (argLegal_initMask a).mpr (Bool.eq_false_iff.mp hw)) s
  | encode a => exact (exec_encode_eq a s).trans (tableCommand_illegal hw)
  | decode a => exact (exec_decode_eq a s).trans (tableCommand_illegal hw)
  | syndrome a =>
    exact exec_syndrome_illegal (Nat.lt_of_not_le (mt (argLegal_syndromeMask a).mpr (Bool.eq_false_iff.mp hw))) s
  | rdSlt a => exact (exec_rdSlt_eq a s).trans (tableCommand_illegal hw)
  | rdEpl a => exact (exec_rdEpl_eq a s).trans (tableCommand_illegal hw)
  | reserved0 _ | reserved7 _ | reserved8 _ | reserved9 _ | reservedA _
  | reservedB _ | reservedC _ | reservedD _ | reservedE _ | reservedF _ => cases hr

/-- A response that reports no error: its data are a pattern's, and only DECODE counts (R26, R54). -/
def Response.IsOk (i : Instr) (r : Response) : Prop :=
  r.status = 0 ∧ r.data.toNat < 2 ^ 23 ∧ (i.opcode ≠ 0x3 → r.count = 0)

theorem toNat_setWidth_lt {w : Nat} (hw : w ≤ 23) (v : BitVec w) : (v.setWidth 32).toNat < 2 ^ 23 := by
  rw [BitVec.toNat_setWidth_of_le (by omega)]
  exact v.isLt.trans_le (Nat.pow_le_pow_right (by decide) hw)

/-- A table command past its checks answers from the tables. -/
theorem isOk_of_tableCommand {i : Instr} {mask arg : Arg} {answer : Memory → Response} {s t : State}
    (hi : exec i s = tableCommand mask arg answer s) (ha : argLegal mask arg = true) (hv : s.tablesValid = true)
    (hok : (answer s.mem).IsOk i) (h : exec i s = .next t) : t.rsp.IsOk i := by
  rw [hi, tableCommand_valid ha hv] at h
  cases h
  exact hok

/-- Past its checks a command responds OK (R185): a table command while `tables_valid = 1`, INIT and SYNDROME always. -/
theorem exec_ok {i : Instr} {s t : State} (hw : i.wellFormed = true)
    (hv : s.tablesValid = true ∨ i.opcode = 0x1 ∨ i.opcode = 0x4) (h : exec i s = .next t) : t.rsp.IsOk i := by
  cases i with
  | init a =>
    obtain rfl := (argLegal_initMask a).mp hw
    obtain ⟨m, -, rfl⟩ := exec_init_zero h
    exact ⟨rfl, Nat.two_pow_pos 23, fun _ => rfl⟩
  | syndrome a =>
    rw [exec_syndrome_legal ((argLegal_syndromeMask a).mp hw)] at h
    cases h
    exact ⟨rfl, toNat_setWidth_lt (by decide) _, fun _ => rfl⟩
  | encode a =>
    exact isOk_of_tableCommand (exec_encode_eq a s) hw (by simpa [Instr.opcode] using hv)
      ⟨rfl, toNat_setWidth_lt le_rfl _, fun _ => rfl⟩ h
  | decode a =>
    exact isOk_of_tableCommand (exec_decode_eq a s) hw (by simpa [Instr.opcode] using hv)
      ⟨rfl, toNat_setWidth_lt le_rfl _, fun hd => absurd rfl hd⟩ h
  | rdSlt a =>
    exact isOk_of_tableCommand (exec_rdSlt_eq a s) hw (by simpa [Instr.opcode] using hv)
      ⟨rfl, toNat_setWidth_lt le_rfl _, fun _ => rfl⟩ h
  | rdEpl a =>
    exact isOk_of_tableCommand (exec_rdEpl_eq a s) hw (by simpa [Instr.opcode] using hv)
      ⟨rfl, toNat_setWidth_lt le_rfl _, fun _ => rfl⟩ h
  | reserved0 _ | reserved7 _ | reserved8 _ | reserved9 _ | reservedA _
  | reservedB _ | reservedC _ | reservedD _ | reservedE _ | reservedF _ => cases hw

/-- A command that is not reserved reads the tables, or is INIT or SYNDROME (R73). -/
theorem opcode_of_not_isReserved {i : Instr} (hr : i.isReserved = false) :
    (i.opcode = 0x2 ∨ i.opcode = 0x3 ∨ i.opcode = 0x5 ∨ i.opcode = 0x6) ∨ i.opcode = 0x1 ∨ i.opcode = 0x4 := by
  cases i with
  | init _ | encode _ | decode _ | syndrome _ | rdSlt _ | rdEpl _ => simp [Instr.opcode]
  | reserved0 _ | reserved7 _ | reserved8 _ | reserved9 _ | reservedA _
  | reservedB _ | reservedC _ | reservedD _ | reservedE _ | reservedF _ => cases hr

/-- How the checks of a command can end, in their order (R185). -/
theorem exec_checks {i : Instr} {s t : State} (h : exec i s = .next t) :
    (i.isReserved = true ∧ t = s.responded (errorResponse .illegalOp)) ∨
    (i.isReserved = false ∧ i.wellFormed = false ∧ t = s.responded (errorResponse .invalidInput)) ∨
    (i.wellFormed = true ∧ (i.opcode = 0x2 ∨ i.opcode = 0x3 ∨ i.opcode = 0x5 ∨ i.opcode = 0x6) ∧
      t = s.responded (errorResponse .uninit)) ∨
    (i.wellFormed = true ∧ t.rsp.IsOk i) := by
  have raised {r : Response} (he : exec i s = .next (s.responded r)) : t = s.responded r :=
    Host.Outcome.next.inj (h.symm.trans he)
  cases hr : i.isReserved with
  | true => exact .inl ⟨rfl, raised (exec_reserved hr s)⟩
  | false =>
    cases hw : i.wellFormed with
    | false => exact .inr (.inl ⟨rfl, rfl, raised (exec_illegalArg hr hw s)⟩)
    | true =>
      cases hv : s.tablesValid with
      | true => exact .inr (.inr (.inr ⟨rfl, exec_ok hw (.inl hv) h⟩))
      | false =>
        obtain ho | ho := opcode_of_not_isReserved hr
        · exact .inr (.inr (.inl ⟨rfl, ho, raised (exec_uninit hv hw ho)⟩))
        · exact .inr (.inr (.inr ⟨rfl, exec_ok hw (.inr ho) h⟩))

end Sys2Proof.Machine
end

section
/-! The statements about errors (spec/60_exceptions.md R180 to R190). -/

namespace Sys2Proof.Machine

/-- Settles O47. -/
theorem reservedOpcodesAreIllegal : Obligations.ReservedOpcodesAreIllegal := by
  refine fun a s => ⟨exec_reserved rfl s, exec_reserved rfl s, exec_reserved rfl s, exec_reserved rfl s,
    exec_reserved rfl s, exec_reserved rfl s, exec_reserved rfl s, exec_reserved rfl s, exec_reserved rfl s,
    exec_reserved rfl s, fun op hop => exec_reserved ?_ s⟩
  rwa [isReserved_iff, (decodeCommand_fields op a).1]

/-- Settles O15: COMPLETE is the only transition that could stop, and every command answers next. -/
theorem stepNeverStops : Obligations.StepNeverStops := by
  intro s
  obtain ⟨-, h⟩ | ⟨-, -, h⟩ | ⟨-, -, -, h⟩ | ⟨-, -, -, h⟩ | ⟨-, -, h⟩ := step_cases s
  case inr.inr.inl => exact h ▸ exec_next _ _
  all_goals exact ⟨_, h⟩

/-- Settles O33: a constant divider puts different patterns into one slot, so the coverage check fails. -/
theorem faultyDividerGivesInitFail : Obligations.FaultyDividerGivesInitFail := by
  intro s
  obtain ⟨b, hb, hcov⟩ := coverageHoldsExactlyWithoutCollision.1 (fun _ => 0) s.mem s.seq
  have hgap : covered b.seq.written = false :=
    Bool.eq_false_iff.mpr fun hc => absurd (hcov.mp hc 1 2 (by decide) (by decide) (by decide)) (by decide)
  rw [runInit_of_build hb, hgap]
  exact ⟨_, rfl, rfl, rfl, rfl⟩

/-- A command that is not reserved responds INVALID_INPUT exactly when it is not well formed (R182). -/
theorem status_invalidInput_iff {i : Instr} {s t : State} (hr : i.isReserved = false) (h : exec i s = .next t) :
    t.rsp.status = 2 ↔ i.wellFormed = false := by
  obtain ⟨hr', -⟩ | ⟨-, hw, rfl⟩ | ⟨hw, -, rfl⟩ | ⟨hw, hok, -⟩ := exec_checks h
  · simp [hr] at hr'
  · simp [hw, errorResponse]
  · simp [hw, errorResponse]
  · simp [hw, hok]

/-- The two forms of the argument check of a command with the mask `mask`, whose legal arguments are those of `legal`. -/
theorem status_invalidInput_arg {i : Instr} {s t : State} {mask a : Arg} {legal : Prop} (hr : i.isReserved = false)
    (hw : i.wellFormed = argLegal mask a) (hl : argLegal mask a = true ↔ legal) (h : exec i s = .next t) :
    (t.rsp.status = 2 ↔ a &&& ~~~mask ≠ 0) ∧ (t.rsp.status = 2 ↔ ¬legal) := by
  rw [status_invalidInput_iff hr h, hw, Bool.eq_false_iff, ← hl]
  exact ⟨not_congr beq_iff_eq, Iff.rfl⟩

/-- Settles O48: each command's check, with its range read off its mask. -/
theorem argumentRangesAreTheLegalMasks : Obligations.ArgumentRangesAreTheLegalMasks := by
  intro a s t
  simp only [← Nat.not_le]
  exact ⟨status_invalidInput_arg rfl rfl (argLegal_initMask a), status_invalidInput_arg rfl rfl (argLegal_encodeMask a),
    status_invalidInput_arg rfl rfl (argLegal_decodeMask a), status_invalidInput_arg rfl rfl (argLegal_syndromeMask a),
    status_invalidInput_arg rfl rfl (argLegal_rdSltMask a), status_invalidInput_arg rfl rfl (argLegal_rdEplMask a)⟩

/-- Only a command that reads the tables responds UNINIT (R181). -/
theorem readsTables_of_status_uninit {i : Instr} {s t : State} (h : exec i s = .next t) (hu : t.rsp.status = 3) :
    i.opcode = 0x2 ∨ i.opcode = 0x3 ∨ i.opcode = 0x5 ∨ i.opcode = 0x6 := by
  obtain ⟨-, rfl⟩ | ⟨-, -, rfl⟩ | ⟨-, ho, -⟩ | ⟨-, hok, -⟩ := exec_checks h
  · cases hu
  · cases hu
  · exact ho
  · rw [hok] at hu
    cases hu

/-- Settles O49: by `exec_uninit`; INIT and SYNDROME read no table. -/
theorem uninitGuardsTheTableCommands : Obligations.UninitGuardsTheTableCommands := by
  refine ⟨fun a s hv => ⟨fun ha => exec_uninit hv ((argLegal_encodeMask a).mpr ha) (by simp [Instr.opcode]),
    fun ha => exec_uninit hv ((argLegal_decodeMask a).mpr ha) (by simp [Instr.opcode]),
    fun ha => exec_uninit hv ((argLegal_rdSltMask a).mpr ha) (by simp [Instr.opcode]),
    fun ha => exec_uninit hv ((argLegal_rdEplMask a).mpr ha) (by simp [Instr.opcode])⟩, ?_⟩
  rintro a s t (h | h) hu
  · simpa [Instr.opcode] using readsTables_of_status_uninit h hu
  · simpa [Instr.opcode] using readsTables_of_status_uninit h hu

/-- Settles O50: one equation per check. -/
theorem statusPriority : Obligations.StatusPriority := by
  refine ⟨fun i s t h => ?_, fun div s b hb => ?_⟩
  · have status {r : Response} (he : exec i s = .next (s.responded r)) : t.rsp.status = r.status := by
      cases h.symm.trans he
      rfl
    exact ⟨fun hr => status (exec_reserved hr s), fun hr hw => status (exec_illegalArg hr hw s),
      fun hw hv ho => status (exec_uninit hv hw ho), fun hw hv => (exec_ok hw hv h).1⟩
  · rw [runInit_of_build hb]
    refine ⟨_, rfl, ?_⟩
    cases covered b.seq.written <;> rfl

/-- An INIT with an operand is no legal INIT (R33). -/
theorem isLegalInit_of_arg_ne_zero {c : Command} (h : c.arg ≠ 0) : c.isLegalInit = false := by
  rw [Command.isLegalInit, beq_eq_false_iff_ne.mpr h, Bool.and_false]

/-- Settles O51: every check that fails responds, and does nothing else. -/
theorem errorsWriteOnlyTheResponse : Obligations.ErrorsWriteOnlyTheResponse := by
  refine ⟨fun i s t h he => ?_, fun div s b hb hc => ?_, fun s t ha _ hne h => ?_⟩
  · obtain ⟨-, rfl⟩ | ⟨-, -, rfl⟩ | ⟨-, -, rfl⟩ | ⟨-, hok, -⟩ := exec_checks h
    case inr.inr.inr => exact absurd hok he
    all_goals exact ⟨rfl, rfl, fun _ => rfl, fun _ => rfl⟩
  · rw [runInit_of_build hb, hc]
    exact ⟨_, rfl, rfl, rfl⟩
  · simp only [State.accepts, Bool.and_eq_true, Bool.not_eq_true', beq_iff_eq] at ha
    obtain ⟨⟨hr, hp⟩, hv⟩ := ha
    rw [step_accept hr hp hv] at h
    cases h
    exact tablesValidAtAccept_other (isLegalInit_of_arg_ne_zero hne) _

/-- Settles O52: by `exec_checks`; the codes are evaluated. -/
theorem statusCodesOfTheBlock : Obligations.StatusCodesOfTheBlock := by
  refine ⟨fun i s t h => ?_, fun st => ?_, by decide⟩
  · obtain ⟨-, rfl⟩ | ⟨-, -, rfl⟩ | ⟨-, -, rfl⟩ | ⟨-, hok, hdata, hcount⟩ := exec_checks h
    case inr.inr.inr => exact ⟨by simp [hok], hdata, hcount⟩
    all_goals exact ⟨by simp [errorResponse], Nat.two_pow_pos 23, fun _ => rfl⟩
  · cases st <;> decide

/-- Settles O53: the response of a command other than a legal INIT does not depend on RSP; a legal INIT builds tables,
and built tables are unique. -/
theorem errorsAreNotSticky : Obligations.ErrorsAreNotSticky := by
  intro i s t r h
  by_cases hi : i = .init 0
  · subst hi
    obtain ⟨m, hm, rfl⟩ := exec_init_zero h
    obtain ⟨m', hm', h'⟩ := exec_legalInit { s with rsp := r }
    rw [h', tablesBuilt_unique hm' hm]
    rfl
  · obtain ⟨r', hs, hr⟩ := exec_sameResponse hi (s := s) (t := { s with rsp := r }) rfl fun _ => rfl
    exact hr.trans (hs.symm.trans h)

end Sys2Proof.Machine
end

section
/-! Reset, idling and the boot transaction (spec/70_reset_and_hazards.md R210 to R214). -/

namespace Sys2Proof.Machine

/-- The invariant holds along every run that answers next: a run is a step and a shorter run. -/
theorem core_run_keeps_inv {k : Nat} {s t : State} (hs : s.Inv) (h : core.run k s = .next t) : t.Inv := by
  induction k generalizing s with
  | zero =>
    cases h
    exact hs
  | succ k ih =>
    obtain ⟨u, hu⟩ := stepNeverStops s
    rw [core_run_succ hu] at h
    exact ih (hs.after_step hu) h

/-- An accepted legal INIT meets the invariant whatever the state before: `tables_valid` is cleared (R33, R131). -/
theorem inv_accept_legalInit {c : Command} (hc : c.isLegalInit = true) (s : State) : (s.accept c).Inv where
  tables h     := by simp [tablesValidAtAccept_legalInit hc] at h
  building _ _ := tablesValidAtAccept_legalInit hc _
  response h   := by cases h

/-- The answer to a legal INIT is OK, and `tables_valid` is then 1 (R133). -/
theorem answers_legalInit {c : Command} (hc : c.isLegalInit = true) {tv : Bool} {r : Response}
    (h : Answers c.instr tv r) : r = ⟨0, 0, 0⟩ ∧ tv = true := by
  rw [(instr_eq_init_iff c).mpr hc, Answers, if_pos ((argLegal_initMask 0).mpr rfl)] at h
  exact h

/-- Settles O14: ACCEPT of a legal INIT enters the invariant, within the latency the command is answered as the code
prescribes, so with OK and `tables_valid = 1`, and the invariant, kept along the run, then says that the tables are
built. -/
theorem initTransactionMakesTablesValid : Obligations.InitTransactionMakesTablesValid := by
  intro s hp hv hop harg hr
  obtain ⟨hrst, hrest⟩ := State.noResetFor_succ hr
  have hc : s.inputs.command = ⟨0x1, 0⟩ := by rw [HostPins.command, hop, harg]
  have hstep : step s = .next (s.clocked.accept ⟨0x1, 0⟩) := hc ▸ step_accept hrst hp hv
  have hinv : (s.clocked.accept ⟨0x1, 0⟩).Inv := inv_accept_legalInit rfl _
  obtain ⟨t, hrun, hphase, -, -, hanswer⟩ := commandCompletesWithinItsLatency _ hinv rfl hrest
  obtain ⟨hrsp, hvalid⟩ := answers_legalInit rfl hanswer
  exact ⟨t, (core_run_succ hstep _).trans hrun, hphase, hrsp, hvalid, (core_run_keeps_inv hinv hrun).tables hvalid⟩

/-- Settles O8: with no command offered only the clock edge passes. -/
theorem idleWaitsForTheHost : Obligations.IdleWaitsForTheHost :=
  fun _ hp hr hv => step_idle hr hp hv

/-- Settles O9: `cmd_ready` and `rsp_valid` are 1 only without reset, and the step is RESET whatever the phase. -/
theorem resetFromAnyPhase : Obligations.ResetFromAnyPhase := by
  intro s hr
  obtain ⟨hready, hvalid, -⟩ := outputsFollowTheState s
  exact ⟨by simpa [hr] using hready, by simpa [hr] using hvalid, _, step_reset hr, rfl, rfl, rfl, rfl, rfl⟩

end Sys2Proof.Machine
end
